-- ==== Sys2Proof/Word.lean ====
section
/-! DEFINITION. The word types of the engine: bytes (R13), 64-bit words for headers, mixer lanes and
results (R6, R70, R77). Every value is unsigned (R11). -/

namespace Sys2Proof

/-- One byte of a key, an image or the buffer (R13, R26). -/
abbrev Byte := BitVec 8

/-- A 64-bit word: a command header (R70), a mixer lane (R102), a result word (R77). -/
abbrev Word := BitVec 64

end Sys2Proof
end

