-- ==== Sys2Proof/Config.lean ====
section
/-! DEFINITION. What an implementation fixes (R8). The open parameter `P_BUF_BYTES_MAX` itself is a field of
State, so that a statement about every state holds for every value of it; here stand its legal range and the value
State.reset gives it. `P_LATENCY` is not modelled (R236). The spec states every result, so there is no free value. -/

namespace Sys2Proof.Config

/-- `P_KEY_BYTES_MAX` of R8: the 32-bit ARG field bounds a key's length. -/
def keyBytesMax : Nat := 2 ^ 32 - 1

/-- R8: 64 ≤ `P_BUF_BYTES_MAX`. -/
def bufBytesMaxLow : Nat := 64

/-- R8: `P_BUF_BYTES_MAX` ≤ 2^35. -/
def bufBytesMaxHigh : Nat := 2 ^ 35

/-- DESIGN CHOICE (unsafe, log 3): the value of `P_BUF_BYTES_MAX` in State.reset. R8 leaves it open; 95_test_vectors.md
assumes 2^20. No statement rests on it. -/
def resetBufBytesMax : Word := 0x100000#64

end Sys2Proof.Config
end

