-- ==== Sys2Proof/Syntax.lean ====
section
/-! DEFINITION. A command as the port delivers it (R70), and the nine commands of R72 as the engine executes them.
A key or image carries its own length, which its header's ARG field repeats (R73). -/

namespace Sys2Proof

/-- A command as the port delivers it: the header `H` and the payload `P` (R70). -/
structure Command where
  header : Word
  payload : List Byte
  deriving DecidableEq, Repr

/-- The commands of R72, one constructor per row of the opcode table. -/
inductive Instr where
  /-- CONFIG way, pageLevel, pageCount (R170). -/
  | config (way pageLevel : BitVec 4) (pageCount : BitVec 32)
  /-- LOAD way, pageLevel, uniqueCount, image (R172); ARG is the image's length. -/
  | load (way pageLevel : BitVec 4) (uniqueCount : Word) (image : List Byte)
  /-- CLEAR (R152). -/
  | clear
  /-- SET key (R150). -/
  | set (key : List Byte)
  /-- TEST key (R151). -/
  | test (key : List Byte)
  /-- PROBE key (R139). -/
  | probe (key : List Byte)
  /-- DIGEST key (R110). -/
  | digest (key : List Byte)
  /-- RDREG register number (R173). -/
  | rdreg (reg : BitVec 32)
  /-- RDBUF 8-byte word index (R175). -/
  | rdbuf (index : BitVec 32)
  deriving DecidableEq, Repr

end Sys2Proof
end

