-- ==== Sys2Proof/WellFormed.lean ====
section
/-! DEFINITION. Well-formedness: `Command.wellFormed` is `WellFormed(H, P)` of R74 as the spec writes it, on slices of the
header; `Instr.wellFormed` says that a term of Instr has an encoding (its key or image length fits ARG, R73).
The decoder is written apart from this file; a statement says that it accepts exactly these commands. -/

namespace Sys2Proof

/-- `PLEN(H)` of R73, from the raw header: CONFIG, CLEAR, RDREG and RDBUF take no payload, LOAD takes 8 + ARG bytes, the
key commands take ARG bytes. Only read for opcodes 0x01 to 0x09. -/
def Command.requiredLength (h : Word) : Nat :=
  if h.toNat % 256 = 2 then 8 + h.toNat / 2 ^ 32
  else if 4 ≤ h.toNat % 256 ∧ h.toNat % 256 ≤ 7 then h.toNat / 2 ^ 32
  else 0

/-- `WellFormed(H, P)` (R74), line for line. -/
def Command.wellFormed (c : Command) : Bool :=
  let opc := c.header.extractLsb 7 0
  (decide (1 ≤ opc.toNat ∧ opc.toNat ≤ 9)) &&
  (c.header.extractLsb 31 16 == 0#16) &&
  (opc == 1#8 || opc == 2#8 || (c.header.extractLsb 11 8 == 0#4 && c.header.extractLsb 15 12 == 0#4)) &&
  (opc != 3#8 || c.header.extractLsb 63 32 == 0#32) &&
  (c.payload.length == Command.requiredLength c.header)

/-- The instruction has an encoding: its key or image is at most 2^32 - 1 bytes (R8, R13, R73). -/
def Instr.wellFormed : Instr → Bool
  | .config _ _ _ => true
  | .load _ _ _ image => decide (image.length ≤ Config.keyBytesMax)
  | .clear => true
  | .set key => decide (key.length ≤ Config.keyBytesMax)
  | .test key => decide (key.length ≤ Config.keyBytesMax)
  | .probe key => decide (key.length ≤ Config.keyBytesMax)
  | .digest key => decide (key.length ≤ Config.keyBytesMax)
  | .rdreg _ => true
  | .rdbuf _ => true

end Sys2Proof
end

