-- ==== Sys2Proof/Decode.lean ====
section
/-! DEFINITION. Decoding (R71 to R76) and, after it, encoding (R79). The decoder is total on every command `(H, P)` and on
every byte stream, and rejects by name; the encoder is written from the same field table. -/

namespace Sys2Proof

/-! ### Byte order (R13, R55) -/

/-- `LE(s)` of R13: the number whose little-endian bytes are `s`. -/
def leNat : List Byte → Nat
  | [] => 0
  | b :: bs => b.toNat + 256 * leNat bs

/-- The `n` little-endian bytes of `v`, lowest first (R55). -/
def leBytes : Nat → Nat → List Byte
  | 0, _ => []
  | n + 1, v => BitVec.ofNat 8 v :: leBytes n (v / 256)

/-- A 64-bit word from its little-endian bytes (R13, R55). -/
def leWord (bs : List Byte) : Word := BitVec.ofNat 64 (leNat bs)

/-! ### Header fields (R71) -/

/-- OPC = H[7:0]. -/
def headerOpc (h : Word) : Byte := h.extractLsb' 0 8

/-- WAY = H[11:8]. -/
def headerWay (h : Word) : BitVec 4 := h.extractLsb' 8 4

/-- PLVL = H[15:12]. -/
def headerPlvl (h : Word) : BitVec 4 := h.extractLsb' 12 4

/-- RSVD = H[31:16]. -/
def headerRsvd (h : Word) : BitVec 16 := h.extractLsb' 16 16

/-- ARG = H[63:32]. -/
def headerArg (h : Word) : BitVec 32 := h.extractLsb' 32 32

/-! ### Opcodes (R72) -/

/-- The assigned opcodes of R72. -/
inductive Opcode where
  | config
  | load
  | clear
  | set
  | test
  | probe
  | digest
  | rdreg
  | rdbuf
  deriving DecidableEq, Repr

/-- The opcode values of R72. -/
def Opcode.code : Opcode → Byte
  | .config => 0x01#8
  | .load => 0x02#8
  | .clear => 0x03#8
  | .set => 0x04#8
  | .test => 0x05#8
  | .probe => 0x06#8
  | .digest => 0x07#8
  | .rdreg => 0x08#8
  | .rdbuf => 0x09#8

/-- The opcode a byte names; 0x00 and 0x0A to 0xFF are reserved (R72, R75). -/
def Opcode.ofCode (b : Byte) : Option Opcode :=
  match b.toNat with
  | 1 => some .config
  | 2 => some .load
  | 3 => some .clear
  | 4 => some .set
  | 5 => some .test
  | 6 => some .probe
  | 7 => some .digest
  | 8 => some .rdreg
  | 9 => some .rdbuf
  | _ => none

/-- Only CONFIG and LOAD take WAY and PLVL fields (R73). -/
def Opcode.takesParameters : Opcode → Bool
  | .config => true
  | .load => true
  | .clear => false
  | .set => false
  | .test => false
  | .probe => false
  | .digest => false
  | .rdreg => false
  | .rdbuf => false

/-- `PLEN` of R73, from the opcode and ARG. -/
def Opcode.payloadLength : Opcode → BitVec 32 → Nat
  | .config, _ => 0
  | .load, arg => 8 + arg.toNat
  | .clear, _ => 0
  | .set, arg => arg.toNat
  | .test, arg => arg.toNat
  | .probe, arg => arg.toNat
  | .digest, arg => arg.toNat
  | .rdreg, _ => 0
  | .rdbuf, _ => 0

/-! ### The decoder -/

/-- Why a command, or the head of a byte stream, is rejected. The first five are the ways to be ill-formed that R203
lists; the last two arise only in the byte-stream view of R76. -/
inductive DecodeError where
  /-- OPC is 0x00 or 0x0A to 0xFF (R75). -/
  | reservedOpcode
  /-- RSVD is not 0 (R75). -/
  | reservedField
  /-- WAY or PLVL is not 0 on an opcode that takes neither (R75). -/
  | strayParameter
  /-- ARG is not 0 on CLEAR (R75). -/
  | clearArgument
  /-- The payload's length is not `PLEN(H)` (R74). -/
  | payloadLength
  /-- A byte stream ends inside a header. -/
  | truncatedHeader
  /-- A byte stream ends inside a payload. -/
  | truncatedPayload
  deriving DecidableEq, Repr

/-- The instruction of a well-formed command, from its fields (R73). -/
def Opcode.instr : Opcode → Word → List Byte → Instr
  | .config, h, _ => .config (headerWay h) (headerPlvl h) (headerArg h)
  | .load, h, p => .load (headerWay h) (headerPlvl h) (leWord (p.take 8)) (p.drop 8)
  | .clear, _, _ => .clear
  | .set, _, p => .set p
  | .test, _, p => .test p
  | .probe, _, p => .probe p
  | .digest, _, p => .digest p
  | .rdreg, h, _ => .rdreg (headerArg h)
  | .rdbuf, h, _ => .rdbuf (headerArg h)

/-- Decode one command as the port delivers it (R70 to R75). The same in every engine state (R78). -/
def decode (c : Command) : Except DecodeError Instr :=
  match Opcode.ofCode (headerOpc c.header) with
  | none => .error .reservedOpcode
  | some op =>
    if headerRsvd c.header ≠ 0#16 then .error .reservedField
    else if op.takesParameters = false ∧ (headerWay c.header ≠ 0#4 ∨ headerPlvl c.header ≠ 0#4) then
      .error .strayParameter
    else if op = .clear ∧ headerArg c.header ≠ 0#32 then .error .clearArgument
    else if c.payload.length ≠ op.payloadLength (headerArg c.header) then .error .payloadLength
    else .ok (op.instr c.header c.payload)

/-! ### The byte-stream view (R76) -/

/-- A command as bytes: the header little-endian, then the payload (R76). -/
def Command.bytes (c : Command) : List Byte := leBytes 8 c.header.toNat ++ c.payload

/-- Cut the first command off a byte stream; the header alone tells its length (R76). DESIGN CHOICE (safe, log 12): R73
gives a reserved opcode no length, so a stream that begins with one is not cut. -/
def parseCommand (bs : List Byte) : Except DecodeError (Command × List Byte) :=
  if bs.length < 8 then .error .truncatedHeader
  else
    let h := leWord (bs.take 8)
    match Opcode.ofCode (headerOpc h) with
    | none => .error .reservedOpcode
    | some op =>
      let n := op.payloadLength (headerArg h)
      if (bs.drop 8).length < n then .error .truncatedPayload
      else .ok (⟨h, (bs.drop 8).take n⟩, (bs.drop 8).drop n)

/-- Decode the first command of a byte stream, with the rest of the stream. -/
def decodeBytes (bs : List Byte) : Except DecodeError (Instr × List Byte) :=
  match parseCommand bs with
  | .error e => .error e
  | .ok (c, rest) =>
    match decode c with
    | .error e => .error e
    | .ok i => .ok (i, rest)

/-! ### The opcode table's numbering -/

/-- The command whose bits are `w`: the header is bits 63:0, and the payload its header asks for follows from bit 64 up, one
byte every 8 bits; bits at or above `nbits` are 0 (log 14). -/
def tableCommand (nbits w : Nat) : Command :=
  let v := w % 2 ^ nbits
  let h : Word := BitVec.ofNat 64 v
  match Opcode.ofCode (headerOpc h) with
  | none => ⟨h, []⟩
  | some op => ⟨h, leBytes (op.payloadLength (headerArg h)) (v / 2 ^ 64)⟩

/-- The instruction the decoder reads from the bits `w` (bit 0 is bit 0 of the header). -/
def decodeTableWord (nbits w : Nat) : Option Instr :=
  match decode (tableCommand nbits w) with
  | .error _ => none
  | .ok i => some i

/-! ### The encoder (R71, R79) -/

/-- The header with RSVD = 0: `OPC | WAY << 8 | PLVL << 12 | ARG << 32` (R71, R79). -/
def mkHeader (op : Opcode) (way plvl : BitVec 4) (arg : BitVec 32) : Word :=
  arg ++ 0#16 ++ plvl ++ way ++ op.code

/-- A key command: ARG is the key's length, the payload is the key (R79). -/
def keyCommand (op : Opcode) (key : List Byte) : Command :=
  ⟨mkHeader op 0#4 0#4 (BitVec.ofNat 32 key.length), key⟩

/-- The command each line of R79 stands for. -/
def encode : Instr → Command
  | .config way plvl cnt => ⟨mkHeader .config way plvl cnt, []⟩
  | .load way plvl uniq image =>
    ⟨mkHeader .load way plvl (BitVec.ofNat 32 image.length), leBytes 8 uniq.toNat ++ image⟩
  | .clear => ⟨mkHeader .clear 0#4 0#4 0#32, []⟩
  | .set key => keyCommand .set key
  | .test key => keyCommand .test key
  | .probe key => keyCommand .probe key
  | .digest key => keyCommand .digest key
  | .rdreg reg => ⟨mkHeader .rdreg 0#4 0#4 reg, []⟩
  | .rdbuf index => ⟨mkHeader .rdbuf 0#4 0#4 index, []⟩

/-- The bytes of an instruction's command (R76, R79). -/
def encodeBytes (i : Instr) : List Byte := (encode i).bytes

end Sys2Proof
end

