-- ==== Sys2Proof/Machine/State.lean ====
section
/-! DEFINITION. The engine's state (R20), its port and the host's side of it (R70, R77, R230 to R233), the status codes
(R200), and the state after reset (R230). Plain data. -/

namespace Sys2Proof.Machine

/-- Why a step stops with a fault. -/
inductive Fault where
  /-- Raised by the buffer accesses of SET, TEST and RDBUF for an address at or above `BUF_BYTES`, which does not exist (R50, R64).
  Safe: the machine stops where the spec has no address; no state that meets R30 reaches it (log 11). -/
  | noSuchAddress
  deriving DecidableEq, Repr

/-- Why a step gives an instruction no meaning. -/
inductive Refusal where
  /-- An instruction without a meaning yet, rejected by name. No arm of this model raises it. Safe. -/
  | notModelled (mnemonic : String)
  deriving DecidableEq, Repr

/-- The status codes that are ever produced (R200). -/
inductive Status where
  | ok
  | invalidParameter
  | capacityOverflow
  | notConfigured
  | illegalCommand
  | outOfRange
  deriving DecidableEq, Repr

/-- The answer to one command: STATUS and RES0, RES1, RES2 (R77). -/
structure Response where
  status : Status
  res0 : Word
  res1 : Word
  res2 : Word
  deriving DecidableEq, Repr

/-- The command port: idle, or busy with the one command it has accepted (R230, R233). -/
inductive Port where
  | idle
  | busy (c : Command)
  deriving DecidableEq, Repr

/-- One thing the outside world does at the port. DESIGN CHOICE (log 1, log 7): held in State as a list, in the order in which
the port meets them (R59, R233). -/
inductive HostInput where
  /-- A command presented to the port, and held until the port is idle (R233). -/
  | command (c : Command)
  /-- Reset, asserted between commands or during the command the port is busy with (R230, R231). -/
  | reset
  /-- A command accepted, and reset asserted before its response (R231). -/
  | resetDuring (c : Command)
  deriving DecidableEq, Repr

/-- The filter buffer as (address, byte) cells; an address without a cell reads as `unlistedByte`. -/
abbrev Memory := List Host.Cell

/-- What a byte of a configured buffer reads as when no cell lists it: 0x00, which CONFIG and CLEAR write to every
byte (R152, R170). DEDUCED (safe, log 5): every buffer is written whole before it can be read (R26). -/
def unlistedByte : Byte := 0x00#8

/-- The canonical form of memory: addresses strictly rising, no cell that equals what an unlisted address reads as. -/
abbrev Memory.wf (m : Memory) : Prop :=
  m.Pairwise (fun c d => c.1 < d.1) ∧ ∀ c ∈ m, c.2 ≠ unlistedByte

/-- The state: R20's registers and buffer, the build-time size, the port, and the host's side of the port. -/
structure State where
  /-- `CFG_VALID` (R21). -/
  cfgValid : BitVec 1
  /-- `WAY` (R22). -/
  way : BitVec 4
  /-- `PAGE_LEVEL` (R23). -/
  pageLevel : BitVec 4
  /-- `PAGE_COUNT` (R24). -/
  pageCount : BitVec 32
  /-- `UNIQUE_COUNT` (R25). -/
  uniqueCount : Word
  /-- `BUF` (R26). -/
  buf : Memory
  /-- `BUF_BYTES_MAX`, the build-time constant `P_BUF_BYTES_MAX` (R8, R29): no step changes it (log 3). -/
  bufBytesMax : Word
  /-- The command port (R233). -/
  port : Port
  /-- The model's own: what the outside world does next, first to come first (log 1). -/
  inputs : List HostInput
  /-- The model's own: every response given, newest first (R31, R77, log 2). No command reads it. -/
  responses : List Response
  deriving DecidableEq, Repr

/-- The state right after reset (R230), with nothing presented to the port. -/
def State.reset : State where
  cfgValid := 0#1
  way := 0#4
  pageLevel := 0#4
  pageCount := 0#32
  uniqueCount := 0#64
  buf := []
  bufBytesMax := Config.resetBufBytesMax
  port := .idle
  inputs := []
  responses := []

end Sys2Proof.Machine
end

