-- ==== Sys2Proof/Machine/Ops.lean ====
section
/-! DEFINITION. The named operations over registers, buffer and port that the meanings share: BUF_BYTES (R27), MemRead and
MemWrite (R14), the two ways a command ends (`respond` and `raise`, R14, R77, R201), installing a filter (R170, R172, R174),
and reset (R230). `raise` is the engine's one way of taking an exception: there is no trap entry, no saved state and
no return from one (R210). -/

namespace Sys2Proof.Machine

/-- What a meaning answers. -/
abbrev Result := Host.Outcome State Fault Refusal

/-! ### Memory -/

/-- The byte at address `x`. -/
def Memory.read : Memory → Nat → Byte
  | [], _ => unlistedByte
  | (a, b) :: m, x => if x = a then b else Memory.read m x

/-- Memory with the byte at `x` set to `v`, in canonical form. -/
def Memory.write : Memory → Nat → Byte → Memory
  | [], x, v => if v = unlistedByte then [] else [(x, v)]
  | (a, b) :: m, x, v =>
    if x < a then (if v = unlistedByte then (a, b) :: m else (x, v) :: (a, b) :: m)
    else if x = a then (if v = unlistedByte then m else (x, v) :: m)
    else (a, b) :: Memory.write m x v

/-- Every byte 0x00 (R152, R170). -/
def Memory.zeros : Memory := []

/-- The bytes of an image laid out from address `a` up (R172). -/
def Memory.ofBytes : Nat → List Byte → Memory
  | _, [] => []
  | a, b :: bs => if b = unlistedByte then Memory.ofBytes (a + 1) bs else (a, b) :: Memory.ofBytes (a + 1) bs

/-- The `n` bytes from address `a` up. -/
def Memory.bytes (m : Memory) : Nat → Nat → List Byte
  | _, 0 => []
  | a, n + 1 => m.read a :: Memory.bytes m (a + 1) n

/-! ### The buffer (R27, R50, R14) -/

/-- `BUF_BYTES = PAGE_COUNT << PAGE_LEVEL` while configured, 0 otherwise (R27). -/
def State.bufBytes (s : State) : Nat :=
  if s.cfgValid = 0#1 then 0 else s.pageCount.toNat <<< s.pageLevel.toNat

/-- `MemRead(a, 1)` (R14); none where the address does not exist (R50). -/
def State.memReadByte (s : State) (a : Nat) : Option Byte :=
  if a < s.bufBytes then some (s.buf.read a) else none

/-- `MemRead(a, 8)`, little-endian (R14, R55); none unless all eight addresses exist (R50). -/
def State.memReadWord (s : State) (a : Nat) : Option Word :=
  if a + 8 ≤ s.bufBytes then some (leWord (s.buf.bytes a 8)) else none

/-- The state with another buffer. -/
def State.setBuf (s : State) (m : Memory) : State := { s with buf := m }

/-- `MemWrite(a, 1, v)` (R14); none where the address does not exist (R50). -/
def State.memWriteByte (s : State) (a : Nat) (v : Byte) : Option State :=
  if a < s.bufBytes then some (s.setBuf (s.buf.write a v)) else none

/-! ### Registers -/

/-- `UNIQUE_COUNT <- UNIQUE_COUNT + 1`, modulo 2^64 (R25, R150). -/
def State.countNew (s : State) : State := { s with uniqueCount := s.uniqueCount + 1#64 }

/-- A new filter replaces whatever the engine held: all registers, the count and the whole buffer at once (R170, R172, R174). -/
def State.install (s : State) (way pageLevel : BitVec 4) (pageCount : BitVec 32) (uniqueCount : Word) (buf : Memory) : State :=
  { s with
    cfgValid := 1#1
    way := way
    pageLevel := pageLevel
    pageCount := pageCount
    uniqueCount := uniqueCount
    buf := buf }

/-! ### The port -/

/-- The port accepts a command (R233). -/
def State.accept (s : State) (c : Command) : State := { s with port := .busy c }

/-- The state with another list of host inputs. -/
def State.setInputs (s : State) (l : List HostInput) : State := { s with inputs := l }

/-- The engine gives the response and the port is idle again (R77, R233). -/
def State.respond (s : State) (r : Response) : State :=
  { s with port := .idle, responses := r :: s.responses }

/-- `respond(OK, r0, r1, r2)` (R14). -/
def respondOk (r0 r1 r2 : Word) (s : State) : Result := .next (s.respond ⟨.ok, r0, r1, r2⟩)

/-- `raise E` (R14, R201): the command ends with status E, result words 0, and no engine state changes. The host may send
the next command at once; nothing is latched, nothing vectors (R201, R210). -/
def raiseStatus (e : Status) (s : State) : Result := .next (s.respond ⟨e, 0#64, 0#64, 0#64⟩)

/-- The check of CLEAR, SET, TEST, PROBE and RDBUF: NOT_CONFIGURED while `CFG_VALID = 0`, before anything else they check
(R202, R204). -/
def whenConfigured (s : State) (k : Result) : Result :=
  if s.cfgValid = 0#1 then raiseStatus .notConfigured s else k

/-- Reset (R230, R231): registers and buffer as after reset, the port idle, no response to a command it cuts off.
`BUF_BYTES_MAX` is a constant and is kept (R230). DESIGN CHOICE (log 7): what the host does next and the record of responses
given are outside the engine and stay. -/
def State.takeReset (s : State) : State :=
  { State.reset with bufBytesMax := s.bufBytesMax, inputs := s.inputs, responses := s.responses }

/-! ### Codes and bytes of a response -/

/-- The 8-bit status code (R200). -/
def Status.code : Status → Byte
  | .ok => 0x00#8
  | .invalidParameter => 0x01#8
  | .capacityOverflow => 0x02#8
  | .notConfigured => 0x03#8
  | .illegalCommand => 0x04#8
  | .outOfRange => 0x05#8

/-- A response as 32 bytes: STATUS, seven zero bytes, then the three words little-endian (R77). -/
def Response.bytes (r : Response) : List Byte :=
  r.status.code :: List.replicate 7 0x00#8 ++ leBytes 8 r.res0.toNat ++ leBytes 8 r.res1.toNat ++ leBytes 8 r.res2.toNat

end Sys2Proof.Machine
end

