-- ==== Sys2Proof/Machine/Operands.lean ====
section
/-! DEFINITION. The operand forms of the commands: the parameters of CONFIG and LOAD and their bounds (R7, R170 to R172), the
register numbers of RDREG (R35), the word index of RDBUF (R175). Keys are used as they come (R73). -/

namespace Sys2Proof.Machine

/-- `LvlMin(way) = 8 − floor(8 / way)` (R171). -/
def lvlMin (way : Nat) : Nat := 8 - 8 / way

/-- The largest pageLevel (R7, R170). -/
def lvlMax : Nat := 13

/-- The largest pageCount, 2^31 − 1 (R7, R170). -/
def pageCountMax : Nat := 2 ^ 31 - 1

/-- way is 4 to 8 and pageLevel is LvlMin(way) to 13: the first two checks of CONFIG and of LOAD (R170, R172). -/
def shapeOk (way pageLevel : BitVec 4) : Bool :=
  decide (4 ≤ way.toNat ∧ way.toNat ≤ 8) &&
    decide (lvlMin way.toNat ≤ pageLevel.toNat ∧ pageLevel.toNat ≤ lvlMax)

/-- The status CONFIG's checks end with, none when all pass, in the order of R170. -/
def configError (s : State) (way pageLevel : BitVec 4) (pageCount : BitVec 32) : Option Status :=
  if shapeOk way pageLevel = false then some .invalidParameter
  else if pageCount.toNat < 1 ∨ pageCountMax < pageCount.toNat then some .invalidParameter
  else if s.bufBytesMax.toNat < pageCount.toNat <<< pageLevel.toNat then some .capacityOverflow
  else none

/-- The status LOAD's checks end with for an image of `n` bytes, none when all pass, in the order of R172. -/
def loadError (s : State) (way pageLevel : BitVec 4) (n : Nat) : Option Status :=
  if shapeOk way pageLevel = false then some .invalidParameter
  else if n = 0 then some .invalidParameter
  else if n % 2 ^ pageLevel.toNat ≠ 0 then some .invalidParameter
  else if s.bufBytesMax.toNat < n then some .capacityOverflow
  else none

/-- `CAPACITY = floor(BUF_BYTES × 8 / WAY)` while configured, 0 otherwise (R28). -/
def State.capacity (s : State) : Nat :=
  if s.cfgValid = 0#1 then 0 else s.bufBytes * 8 / s.way.toNat

/-- `Reg(n)` of R35, zero-extended to 64 bits; none for a reserved number. -/
def State.register (s : State) (n : Nat) : Option Word :=
  match n with
  | 0 => some (s.way.setWidth 64)
  | 1 => some (s.pageLevel.setWidth 64)
  | 2 => some (s.pageCount.setWidth 64)
  | 3 => some s.uniqueCount
  | 4 => some (BitVec.ofNat 64 s.capacity)
  | 5 => some (BitVec.ofNat 64 s.bufBytes)
  | 6 => some (s.cfgValid.setWidth 64)
  | 7 => some s.bufBytesMax
  | _ => none

/-- The signed reading of `UNIQUE_COUNT` a host may take (R25). -/
def State.uniqueCountSigned (s : State) : Int := s.uniqueCount.toInt

end Sys2Proof.Machine
end

