-- ==== Sys2Proof/Machine/Configuration.lean ====
section
/-! DEFINITION. Configuration and read-back: CONFIG (R170), LOAD (R172), RDREG (R173), RDBUF (R175). Every check comes before the first
write (R201). -/

namespace Sys2Proof.Machine

/-- CONFIG (R170). -/
def execConfig (way pageLevel : BitVec 4) (pageCount : BitVec 32) (s : State) : Result :=
  match configError s way pageLevel pageCount with
  | some e => raiseStatus e s
  | none => respondOk 0#64 0#64 0#64 (s.install way pageLevel pageCount 0#64 Memory.zeros)

/-- LOAD (R172): N is the image's length, PAGE_COUNT = N >> pageLevel, and BUF is a copy of the image (R65). -/
def execLoad (way pageLevel : BitVec 4) (uniqueCount : Word) (image : List Byte) (s : State) : Result :=
  match loadError s way pageLevel image.length with
  | some e => raiseStatus e s
  | none =>
    respondOk 0#64 0#64 0#64
      (s.install way pageLevel (BitVec.ofNat 32 (image.length >>> pageLevel.toNat)) uniqueCount (Memory.ofBytes 0 image))

/-- RDREG (R173): configured or not. -/
def execRdreg (reg : BitVec 32) (s : State) : Result :=
  match s.register reg.toNat with
  | none => raiseStatus .outOfRange s
  | some v => respondOk v 0#64 0#64 s

/-- RDBUF (R175). -/
def execRdbuf (index : BitVec 32) (s : State) : Result :=
  whenConfigured s <|
    if s.bufBytes / 8 ≤ index.toNat then raiseStatus .outOfRange s
    else
      match s.memReadWord (8 * index.toNat) with
      | none => .fault .noSuchAddress
      | some v => respondOk v 0#64 0#64 s

end Sys2Proof.Machine
end

