-- ==== Sys2Proof/Machine/Flags.lean ====
section
/-! DEFINITION. The engine has no status flags (R33). The two Boolean outcomes, of SET and of TEST, are returned in RES0; here is
how they are formed from the probed bits (R150, R151). -/

namespace Sys2Proof.Machine

/-- The probed bit: `(old & m) ≠ 0` (R52, R137). -/
def bitIsSet (old m : Byte) : Bool := old &&& m != 0#8

/-- `hit` after one more probe: a bit that is 0 makes it 0 (R150, R151). -/
def hitAfter (hit : Bool) (old m : Byte) : Bool := hit && bitIsSet old m

/-- A Boolean outcome as a result word (R150, R151). -/
def boolWord (b : Bool) : Word := if b then 1#64 else 0#64

end Sys2Proof.Machine
end

