-- ==== Sys2Proof/Machine/Digest.lean ====
section
/-! DEFINITION. `hash_digest_mixer` (R100 to R109) and the DIGEST command (R110). A pure function of the key and of fixed
constants. PRESUMED (unsafe, log 8): the constant M, the rotation directions, the End pattern and the tail table are what the
spec itself takes from general knowledge (GK1 to GK5). -/

namespace Sys2Proof.Machine

/-- `rotl64(x, k)` (R12). -/
def rotl64 (x : Word) (k : Nat) : Word := (x <<< k) ||| (x >>> (64 - k))

/-- The magic constant M (R101). -/
def magic : Word := 0xdeadbeefdeadbeef#64

/-- The seed of lanes a and b (R10, R102). -/
def seed : Word := 0#64

/-- The four mixer lanes (R102). -/
structure Lanes where
  a : Word
  b : Word
  c : Word
  d : Word
  deriving DecidableEq, Repr

/-- The lanes at the start: `(0, 0, M, M)` (R102). -/
def Lanes.start : Lanes := ⟨seed, seed, magic, magic⟩

/-- `Mix`: the 12 rows of R103, each rotate, add, xor. -/
def mix (l : Lanes) : Lanes :=
  let a := l.a
  let b := l.b
  let c := l.c
  let d := l.d
  let c := rotl64 c 50
  let c := c + d
  let a := a ^^^ c
  let d := rotl64 d 52
  let d := d + a
  let b := b ^^^ d
  let a := rotl64 a 30
  let a := a + b
  let c := c ^^^ a
  let b := rotl64 b 41
  let b := b + c
  let d := d ^^^ b
  let c := rotl64 c 54
  let c := c + d
  let a := a ^^^ c
  let d := rotl64 d 48
  let d := d + a
  let b := b ^^^ d
  let a := rotl64 a 38
  let a := a + b
  let c := c ^^^ a
  let b := rotl64 b 37
  let b := b + c
  let d := d ^^^ b
  let c := rotl64 c 62
  let c := c + d
  let a := a ^^^ c
  let d := rotl64 d 34
  let d := d + a
  let b := b ^^^ d
  let a := rotl64 a 5
  let a := a + b
  let c := c ^^^ a
  let b := rotl64 b 36
  let b := b + c
  let d := d ^^^ b
  ⟨a, b, c, d⟩

/-- `End`: the 11 rows of R104, each xor, rotate, add. -/
def finalise (l : Lanes) : Lanes :=
  let a := l.a
  let b := l.b
  let c := l.c
  let d := l.d
  let d := d ^^^ c
  let c := rotl64 c 15
  let d := d + c
  let a := a ^^^ d
  let d := rotl64 d 52
  let a := a + d
  let b := b ^^^ a
  let a := rotl64 a 26
  let b := b + a
  let c := c ^^^ b
  let b := rotl64 b 51
  let c := c + b
  let d := d ^^^ c
  let c := rotl64 c 28
  let d := d + c
  let a := a ^^^ d
  let d := rotl64 d 9
  let a := a + d
  let b := b ^^^ a
  let a := rotl64 a 47
  let b := b + a
  let c := c ^^^ b
  let b := rotl64 b 54
  let c := c + b
  let d := d ^^^ c
  let c := rotl64 c 32
  let d := d + c
  let a := a ^^^ d
  let d := rotl64 d 25
  let a := a + d
  let b := b ^^^ a
  let a := rotl64 a 63
  let b := b + a
  ⟨a, b, c, d⟩

/-- `LE64(K, i)` (R13, R54). -/
def le64 (K : List Byte) (i : Nat) : Word := leWord ((K.drop i).take 8)

/-- The first half of a block: 16 bytes into c and d, then Mix (R105, R106). -/
def absorbHalf (K : List Byte) (p : Nat) (l : Lanes) : Lanes :=
  mix { l with c := l.c + le64 K p, d := l.d + le64 K (p + 8) }

/-- One full 32-byte block at `p` (R105). -/
def absorbBlock (K : List Byte) (p : Nat) (l : Lanes) : Lanes :=
  let m := absorbHalf K p l
  { m with a := m.a + le64 K (p + 16), b := m.b + le64 K (p + 24) }

/-- `n` full blocks from `p` on (R105). -/
def absorbBlocks (K : List Byte) : Nat → Nat → Lanes → Lanes
  | 0, _, l => l
  | n + 1, p, l => absorbBlocks K n (p + 32) (absorbBlock K p l)

/-- The length term, then the last 0 to 15 bytes `T`, zero-extended (R107; the unsigned variant, R9, log 9). `L` is the key's
whole length. -/
def foldTail (L : Nat) (T : List Byte) (l : Lanes) : Lanes :=
  let l := { l with d := l.d + (BitVec.ofNat 64 L <<< 56) }
  if T.length = 0 then { l with c := l.c + magic, d := l.d + magic }
  else { l with c := l.c + leWord (T.take 8), d := l.d + leWord (T.drop 8) }

/-- The lanes before End: full blocks, the residual half block when 16 or more bytes remain, the tail (R105 to R107). -/
def absorb (K : List Byte) : Lanes :=
  let L := K.length
  let l := absorbBlocks K (L / 32) 0 Lanes.start
  let p := 32 * (L / 32)
  if 16 ≤ L % 32 then foldTail L (K.drop (p + 16)) (absorbHalf K p l)
  else foldTail L (K.drop p) l

/-- `Digest(K)` as (low, high) (R108, R109). -/
def digest (K : List Byte) : Word × Word :=
  let l := finalise (absorb K)
  (l.a, l.b)

/-- DIGEST (R110): no filter needed, nothing written. -/
def execDigest (key : List Byte) (s : State) : Result :=
  respondOk (digest key).1 (digest key).2 0#64 s

end Sys2Proof.Machine
end

