-- ==== Sys2Proof/Machine/Probe.lean ====
section
/-! DEFINITION. The page-select multiplexer (R130 to R134), the bit-position decoder (R135 to R138) and the PROBE command (R139).
Lane order, code order and the unsigned modulus are the spec's decisions D12 and D14 (log 10); the left rotation is D13 and GK6
(log 8). -/

namespace Sys2Proof.Machine

/-- `rotl32(x, k)` (R12). -/
def rotl32 (x : BitVec 32) (k : Nat) : BitVec 32 := (x <<< k) ||| (x >>> (32 - k))

/-- `V = high ‖ low` (R130). -/
def digestValue (key : List Byte) : BitVec 128 := (digest key).2 ++ (digest key).1

/-- The selector lane `w_i = V[32i+31 : 32i]` (R130). -/
def selectorLane (V : BitVec 128) (i : Nat) : BitVec 32 := V.extractLsb' (32 * i) 32

/-- The selector S (R131, R132). -/
def selector (V : BitVec 128) : BitVec 32 :=
  rotl32 (selectorLane V 0) 8 ^^^ rotl32 (selectorLane V 1) 6 ^^^ rotl32 (selectorLane V 2) 4 ^^^
    rotl32 (selectorLane V 3) 2

/-- The page index `Pg = S mod PAGE_COUNT`, unsigned (R133). -/
def State.pageIndex (s : State) (V : BitVec 128) : Nat := (selector V).toNat % s.pageCount.toNat

/-- The page byte offset `O = Pg << PAGE_LEVEL` (R134). -/
def State.pageOffset (s : State) (V : BitVec 128) : Nat := s.pageIndex V <<< s.pageLevel.toNat

/-- The code `c_j = V[16j+15 : 16j]` (R135). -/
def probeCode (V : BitVec 128) (j : Nat) : BitVec 16 := V.extractLsb' (16 * j) 16

/-- The bit position `b_j = c_j & (2^(PAGE_LEVEL+3) − 1)` (R136). -/
def State.bitPosition (s : State) (V : BitVec 128) (j : Nat) : BitVec 16 :=
  probeCode V j &&& BitVec.ofNat 16 (2 ^ (s.pageLevel.toNat + 3) - 1)

/-- The byte address `A_j = O + (b_j >> 3)` (R52, R137). -/
def probeAddress (O : Nat) (b : BitVec 16) : Nat := O + b.toNat >>> 3

/-- The bit mask `m_j = 1 << (b_j & 7)` (R52, R137). -/
def probeMask (b : BitVec 16) : Byte := 1#8 <<< (b &&& 7#16).toNat

/-- The ProbeSet of a key under the current configuration: the page offset and all eight bit positions (R138). -/
structure ProbeSet where
  offset : Nat
  positions : List (BitVec 16)
  deriving DecidableEq, Repr

/-- `ProbeSet(K)` (R138). -/
def State.probeSet (s : State) (key : List Byte) : ProbeSet :=
  let V := digestValue key
  ⟨s.pageOffset V, (List.range 8).map (s.bitPosition V)⟩

/-- The probes SET and TEST use: j = 0 to WAY − 1 in increasing order, each an address and a mask (R137, R138). -/
def State.probes (s : State) (key : List Byte) : List (Nat × Byte) :=
  let P := s.probeSet key
  (P.positions.take s.way.toNat).map fun b => (probeAddress P.offset b, probeMask b)

/-- Four bit positions in one result word, the first in bits 15:0 (R139). -/
def packPositions (b0 b1 b2 b3 : BitVec 16) : Word :=
  b0.setWidth 64 ||| b1.setWidth 64 <<< 16 ||| b2.setWidth 64 <<< 32 ||| b3.setWidth 64 <<< 48

/-- PROBE (R139): all eight masked positions are returned, and BUF is not touched. -/
def execProbe (key : List Byte) (s : State) : Result :=
  whenConfigured s <|
    let V := digestValue key
    let b := s.bitPosition V
    respondOk (BitVec.ofNat 64 (s.pageOffset V)) (packPositions (b 0) (b 1) (b 2) (b 3))
      (packPositions (b 4) (b 5) (b 6) (b 7)) s

end Sys2Proof.Machine
end

