-- ==== Sys2Proof/Machine/Filter.lean ====
section
/-! DEFINITION. The filter operations SET, TEST and CLEAR (R150 to R152). -/

namespace Sys2Proof.Machine

/-- SET's loop over its probes: read the byte, note its bit, write it back with the bit set, so that a later probe sees the earlier
writes (R58, R150). None where an address does not exist. -/
def setProbes : List (Nat × Byte) → State → Bool → Option (State × Bool)
  | [], s, hit => some (s, hit)
  | (A, m) :: ps, s, hit =>
    match s.memReadByte A with
    | none => none
    | some old =>
      match s.memWriteByte A (old ||| m) with
      | none => none
      | some s' => setProbes ps s' (hitAfter hit old m)

/-- TEST's loop over its probes (R151). -/
def testProbes : List (Nat × Byte) → State → Bool → Option Bool
  | [], _, hit => some hit
  | (A, m) :: ps, s, hit =>
    match s.memReadByte A with
    | none => none
    | some old => testProbes ps s (hitAfter hit old m)

/-- SET (R150). -/
def execSet (key : List Byte) (s : State) : Result :=
  whenConfigured s <|
    match setProbes (s.probes key) s true with
    | none => .fault .noSuchAddress
    | some (s', hit) => if hit then respondOk 0#64 0#64 0#64 s' else respondOk 1#64 0#64 0#64 s'.countNew

/-- TEST (R151). -/
def execTest (key : List Byte) (s : State) : Result :=
  whenConfigured s <|
    match testProbes (s.probes key) s true with
    | none => .fault .noSuchAddress
    | some hit => respondOk (boolWord hit) 0#64 0#64 s

/-- CLEAR (R152): every byte of BUF to 0x00, no register changed. -/
def execClear (s : State) : Result :=
  whenConfigured s <| respondOk 0#64 0#64 0#64 (s.setBuf Memory.zeros)

end Sys2Proof.Machine
end

