-- ==== Sys2Proof/Machine/Dispatch.lean ====
section
/-! DEFINITION. One arm per command: its meaning. -/

namespace Sys2Proof.Machine

def exec (i : Instr) (s : State) : Host.Outcome State Fault Refusal :=
  match i with
  | .config way pageLevel pageCount => Sys2Proof.Machine.execConfig way pageLevel pageCount s
  | .load way pageLevel uniqueCount image => Sys2Proof.Machine.execLoad way pageLevel uniqueCount image s
  | .clear => Sys2Proof.Machine.execClear s
  | .set key => Sys2Proof.Machine.execSet key s
  | .test key => Sys2Proof.Machine.execTest key s
  | .probe key => Sys2Proof.Machine.execProbe key s
  | .digest key => Sys2Proof.Machine.execDigest key s
  | .rdreg reg => Sys2Proof.Machine.execRdreg reg s
  | .rdbuf index => Sys2Proof.Machine.execRdbuf index s

end Sys2Proof.Machine
end

