-- ==== Sys2Proof/Machine/Port.lean ====
section
/-! DEFINITION. What the port does in one step: run the command it is busy with, or take the next thing the host does (R58, R59, R77,
R230 to R233, R236). -/

namespace Sys2Proof.Machine

/-- Run one command whole (R236): an ill-formed one ends with ILLEGAL_COMMAND before anything else is checked (R202, R203). -/
def runCommand (c : Command) (s : State) : Result :=
  match decode c with
  | .error _ => raiseStatus .illegalCommand s
  | .ok i => exec i s

/-- The port is busy with `c`: hosts are held until its response (R233), and only reset cuts it off (R231). -/
def stepBusy (c : Command) (s : State) : Result :=
  match s.inputs with
  | .reset :: rest => .next (s.setInputs rest).takeReset
  | _ => runCommand c s

/-- The port is idle: it meets the next host input. With none it waits and nothing changes (log 1). -/
def stepIdle (s : State) : Result :=
  match s.inputs with
  | [] => .next s
  | .command c :: rest => runCommand c ((s.setInputs rest).accept c)
  | .reset :: rest => .next (s.setInputs rest).takeReset
  | .resetDuring c :: rest => .next ((s.setInputs rest).accept c).takeReset

/-- One step of the port. -/
def stepPort (s : State) : Result :=
  match s.port with
  | .busy c => stepBusy c s
  | .idle => stepIdle s

/-- Present the command whose bits the opcode table numbers as `w` to an idle port, ahead of everything else (log 1, log 14). -/
def State.present (s : State) (nbits w : Nat) : State :=
  { s with port := .idle, inputs := .command (tableCommand nbits w) :: s.inputs }

end Sys2Proof.Machine
end

