-- ==== Sys2Proof/Machine/Step.lean ====
section
/-! DEFINITION. One step of the machine: one host input dealt with whole (R58, R236). -/

namespace Sys2Proof.Machine

/-- One step: the port runs its command, or takes the host's next input. -/
def step (s : State) : Host.Outcome State Fault Refusal := stepPort s

/-- The state in which the command with the table bits `w` is the next thing the port meets. -/
def State.withFetchWord (s : State) (nbits w : Nat) : State := s.present nbits w

end Sys2Proof.Machine
end

