-- ==== Sys2Proof/Machine/Assembler.lean ====
section
/-! DEFINITION. The spec's assembler notation (R79): one line of text to the command it writes. It is host-side: no step reads text.
DESIGN CHOICE (safe, log 18): blanks around operands, around a number between parentheses and around or between hex bytes are free, hex
digits are of either case, and a text that has no reading even so is rejected. -/

namespace Sys2Proof

/-- The double quote. -/
def quoteChar : Char := Char.ofNat 34

/-- A space or a tab. -/
def isBlank (c : Char) : Bool := c == ' ' || c == '\t'

/-- A text without the blanks at its ends. -/
def trimBlanks (l : List Char) : List Char := (((l.dropWhile isBlank).reverse).dropWhile isBlank).reverse

/-- The value of a digit, of any base up to 16. DESIGN CHOICE (safe, log 18): hexadecimal digits of either case. -/
def digitValue (c : Char) : Option Nat :=
  let n := c.toNat
  if 48 ≤ n ∧ n ≤ 57 then some (n - 48)
  else if 97 ≤ n ∧ n ≤ 102 then some (n - 87)
  else if 65 ≤ n ∧ n ≤ 70 then some (n - 55)
  else none

/-- The number a digit string spells in a base, after `acc`. -/
def digitsValue (base : Nat) : List Char → Nat → Option Nat
  | [], acc => some acc
  | c :: cs, acc =>
    match digitValue c with
    | none => none
    | some d => if d < base then digitsValue base cs (acc * base + d) else none

/-- A number, decimal or `0x` hexadecimal (R79). DESIGN CHOICE (safe, log 18): leading zeros are free. -/
def parseNumber : List Char → Option Nat
  | [] => none
  | '0' :: 'x' :: [] => none
  | '0' :: 'x' :: c :: cs => digitsValue 16 (c :: cs) 0
  | c :: cs => digitsValue 10 (c :: cs) 0

/-- A number below `bound`. -/
def parseBelow (bound : Nat) (l : List Char) : Option Nat :=
  match parseNumber l with
  | none => none
  | some n => if n < bound then some n else none

/-- The register names of R35, as R79 allows them for `<reg>`. -/
def registerNames : List (List Char × Nat) :=
  [("WAY".toList, 0), ("PAGE_LEVEL".toList, 1), ("PAGE_COUNT".toList, 2), ("UNIQUE_COUNT".toList, 3),
   ("CAPACITY".toList, 4), ("BUF_BYTES".toList, 5), ("CFG_VALID".toList, 6), ("BUF_BYTES_MAX".toList, 7)]

/-- A `<reg>` operand: a name or a number. -/
def parseRegister (l : List Char) : Option Nat :=
  match registerNames.find? (fun p => p.1 == l) with
  | some p => some p.2
  | none => parseBelow (2 ^ 32) l

/-- The text between `pre` and `post`. -/
def between (pre : List Char) (post : Char) (l : List Char) : Option (List Char) :=
  if l.take pre.length = pre then
    match (l.drop pre.length).reverse with
    | [] => none
    | c :: r => if c = post then some r.reverse else none
  else none

/-- The bytes of `hh hh …`. DESIGN CHOICE (safe, log 18): R79 shows one space between bytes; here any number of blanks (space, tab), none
included, may stand before, between and after them, and never inside a byte. -/
def parseHexBytes : List Char → Option (List Byte)
  | [] => some []
  | [c] => if isBlank c then some [] else none
  | c :: d :: cs =>
    if isBlank c then parseHexBytes (d :: cs)
    else
      match digitsValue 16 [c, d] 0, parseHexBytes cs with
      | some v, some bs => some (BitVec.ofNat 8 v :: bs)
      | _, _ => none

/-- ASCII text without a quote in it. DESIGN CHOICE (safe, log 18): any code from 0 to 127 but the quote, and no escapes. -/
def parseAscii (l : List Char) : Option (List Byte) :=
  if l.all (fun c => decide (c.toNat < 128) && c != quoteChar) then some (l.map fun c => BitVec.ofNat 8 c.toNat) else none

/-- A `<key>` or `<bytes>` operand: `"text"`, `x"hh hh …"`, `le32(n)`, `le64(n)` or `zeros(n)` (R79). -/
def parseKey (l : List Char) : Option (List Byte) :=
  match between [quoteChar] quoteChar l with
  | some t => parseAscii t
  | none =>
    match between ['x', quoteChar] quoteChar l with
    | some t => parseHexBytes t
    | none =>
      match between "le32(".toList ')' l with
      | some t => (parseBelow (2 ^ 32) (trimBlanks t)).map (leBytes 4)
      | none =>
        match between "le64(".toList ')' l with
        | some t => (parseBelow (2 ^ 64) (trimBlanks t)).map (leBytes 8)
        | none =>
          match between "zeros(".toList ')' l with
          | some t => (parseBelow (2 ^ 32) (trimBlanks t)).map (fun n => List.replicate n 0x00#8)
          | none => none

/-- The operands between commas that stand outside quotes. -/
def splitOperands : List Char → List Char → Bool → List (List Char)
  | [], cur, _ => [trimBlanks cur.reverse]
  | c :: cs, cur, quoted =>
    if c = quoteChar then splitOperands cs (c :: cur) (!quoted)
    else if c = ',' ∧ quoted = false then trimBlanks cur.reverse :: splitOperands cs [] false
    else splitOperands cs (c :: cur) quoted

/-- The instruction a mnemonic and its operands write (R79). -/
def parseInstr (mnemonic : List Char) (ops : List (List Char)) : Option Instr :=
  if mnemonic = "CONFIG".toList then
    match ops with
    | [w, l, n] =>
      match parseBelow 16 w, parseBelow 16 l, parseBelow (2 ^ 32) n with
      | some w, some l, some n => some (.config (BitVec.ofNat 4 w) (BitVec.ofNat 4 l) (BitVec.ofNat 32 n))
      | _, _, _ => none
    | _ => none
  else if mnemonic = "LOAD".toList then
    match ops with
    | [w, l, u, b] =>
      match parseBelow 16 w, parseBelow 16 l, parseBelow (2 ^ 64) u, parseKey b with
      | some w, some l, some u, some b => some (.load (BitVec.ofNat 4 w) (BitVec.ofNat 4 l) (BitVec.ofNat 64 u) b)
      | _, _, _, _ => none
    | _ => none
  else if mnemonic = "CLEAR".toList then (if ops = [] then some .clear else none)
  else
    match ops with
    | [x] =>
      if mnemonic = "SET".toList then (parseKey x).map .set
      else if mnemonic = "TEST".toList then (parseKey x).map .test
      else if mnemonic = "PROBE".toList then (parseKey x).map .probe
      else if mnemonic = "DIGEST".toList then (parseKey x).map .digest
      else if mnemonic = "RDREG".toList then (parseRegister x).map fun n => .rdreg (BitVec.ofNat 32 n)
      else if mnemonic = "RDBUF".toList then (parseBelow (2 ^ 32) x).map fun n => .rdbuf (BitVec.ofNat 32 n)
      else none
    | _ => none

/-- The command one assembler line writes (R79); none for a text R79 gives no reading, or a key too long to encode (R73). -/
def assembleLine (line : List Char) : Option Command :=
  let l := trimBlanks line
  let mnemonic := l.takeWhile (fun c => !isBlank c)
  let rest := trimBlanks (l.dropWhile (fun c => !isBlank c))
  match parseInstr mnemonic (if rest = [] then [] else splitOperands rest [] false) with
  | none => none
  | some i => if i.wellFormed then some (encode i) else none

end Sys2Proof
end

