-- ==== Sys2Proof/Safety.lean ====
section
/-! DEFINITION. The terms claims are stated in: the configuration invariant (R30) with the canonical form of BUF, the architectural
state apart from the port (R20), what answering a command does to the port, one bit of BUF (R52), the classes of commands the
rules name, runs of commands, Mix and End step by step from their tables (R103, R104), the digest written as a stream (R109), and
the operand texts of the assembler (R79). -/

namespace Sys2Proof.Machine

/-- R30, with the buffer in canonical form and inside `BUF_BYTES` (R26), and `BUF_BYTES_MAX` in the range of R8. -/
structure State.Inv (s : State) : Prop where
  unconfigured : s.cfgValid = 0#1 → s.way = 0#4 ∧ s.pageLevel = 0#4 ∧ s.pageCount = 0#32 ∧ s.uniqueCount = 0#64
  way_range : s.cfgValid = 1#1 → 4 ≤ s.way.toNat ∧ s.way.toNat ≤ 8
  level_range : s.cfgValid = 1#1 → 8 - 8 / s.way.toNat ≤ s.pageLevel.toNat ∧ s.pageLevel.toNat ≤ 13
  count_range : s.cfgValid = 1#1 → 1 ≤ s.pageCount.toNat ∧ s.pageCount.toNat ≤ 2 ^ 31 - 1
  size_fits : s.cfgValid = 1#1 → s.pageCount.toNat * 2 ^ s.pageLevel.toNat ≤ s.bufBytesMax.toNat
  buf_wf : s.buf.wf
  buf_inside : ∀ c ∈ s.buf, c.1 < s.bufBytes
  max_range : 64 ≤ s.bufBytesMax.toNat ∧ s.bufBytesMax.toNat ≤ 2 ^ 35

/-- The architectural state of R20 and the build-time constant of R29: all of State but the port and the host's side of it. -/
structure Engine where
  cfgValid : BitVec 1
  way : BitVec 4
  pageLevel : BitVec 4
  pageCount : BitVec 32
  uniqueCount : Word
  buf : Memory
  bufBytesMax : Word
  deriving DecidableEq, Repr

/-- The architectural part of a state. -/
def State.engine (s : State) : Engine :=
  ⟨s.cfgValid, s.way, s.pageLevel, s.pageCount, s.uniqueCount, s.buf, s.bufBytesMax⟩

/-- What ending a command with the response `r` does around the engine: the port is idle, the host's inputs wait as before, and exactly
this response was given (R77, R233); the build-time constant stands (R29). -/
def Answered (s t : State) (r : Response) : Prop :=
  t.port = .idle ∧ t.inputs = s.inputs ∧ t.responses = r :: s.responses ∧ t.bufBytesMax = s.bufBytesMax

/-- The response of a command that raises `e` (R14, R201). -/
def errorResponse (e : Status) : Response := ⟨e, 0#64, 0#64, 0#64⟩

/-- `WAY`, `PAGE_LEVEL`, `PAGE_COUNT` and `CFG_VALID` are unchanged. -/
def SameConfiguration (s t : State) : Prop :=
  t.cfgValid = s.cfgValid ∧ t.way = s.way ∧ t.pageLevel = s.pageLevel ∧ t.pageCount = s.pageCount

/-- Every probed bit of the key is 1 (R150, R151). -/
def State.allProbedBitsSet (s : State) (key : List Byte) : Prop :=
  ∀ p ∈ s.probes key, s.buf.read p.1 &&& p.2 ≠ 0#8

/-- Bit `k` of page `p`: bit `k & 7` of byte `k >> 3` of the page (R51, R52). -/
def State.pageBit (s : State) (p k : Nat) : Bool :=
  (s.buf.read (p * 2 ^ s.pageLevel.toNat + k / 8)).getLsbD (k % 8)

/-- The number of 1 bits of a byte. -/
def byteOnes (b : Byte) : Nat := ((List.range 8).filter fun k => b.getLsbD k).length

/-- The number of 1 bits in BUF (R153). -/
def onesCount : Memory → Nat
  | [] => 0
  | (_, b) :: m => byteOnes b + onesCount m

/-- The commands that need a configured engine (R204). -/
def needsFilter : Instr → Bool
  | .config _ _ _ => false
  | .load _ _ _ _ => false
  | .clear => true
  | .set _ => true
  | .test _ => true
  | .probe _ => true
  | .digest _ => false
  | .rdreg _ => false
  | .rdbuf _ => true

/-- The commands that write nothing (R57, R151, R139, R110, R173, R175). -/
def readsOnly : Instr → Bool
  | .config _ _ _ => false
  | .load _ _ _ _ => false
  | .clear => false
  | .set _ => false
  | .test _ => true
  | .probe _ => true
  | .digest _ => true
  | .rdreg _ => true
  | .rdbuf _ => true

/-- The commands other than CLEAR, CONFIG and LOAD: those that never clear a bit (R153). -/
def keepsBits : Instr → Bool
  | .config _ _ _ => false
  | .load _ _ _ _ => false
  | .clear => false
  | .set _ => true
  | .test _ => true
  | .probe _ => true
  | .digest _ => true
  | .rdreg _ => true
  | .rdbuf _ => true

/-- The commands that make a filter (R174). -/
def makesFilter : Instr → Bool
  | .config _ _ _ => true
  | .load _ _ _ _ => true
  | .clear => false
  | .set _ => false
  | .test _ => false
  | .probe _ => false
  | .digest _ => false
  | .rdreg _ => false
  | .rdbuf _ => false

/-- The instructions `l`, one after another, each answering a next state, lead from `s` to `t`. -/
def runs : List Instr → State → State → Prop
  | [], s, t => t = s
  | i :: l, s, t => ∃ u, exec i s = .next u ∧ runs l u t

/-- The names of the mixer's lanes (R102). -/
inductive LaneName where
  | a
  | b
  | c
  | d
  deriving DecidableEq, Repr

/-- The lane after, in the ring a, b, c, d (R103). -/
def LaneName.next : LaneName → LaneName
  | .a => .b
  | .b => .c
  | .c => .d
  | .d => .a

/-- A lane's value. -/
def Lanes.lane (l : Lanes) : LaneName → Word
  | .a => l.a
  | .b => l.b
  | .c => l.c
  | .d => l.d

/-- The lanes with one of them set. -/
def Lanes.setLane (l : Lanes) (x : LaneName) (v : Word) : Lanes :=
  match x with
  | .a => { l with a := v }
  | .b => { l with b := v }
  | .c => { l with c := v }
  | .d => { l with d := v }

/-- One step of Mix in R103's words: rotate one lane left, add the next lane into it, XOR the result into the lane two places on. -/
def mixStep (l : Lanes) (step : LaneName × Nat) : Lanes :=
  let l := l.setLane step.1 ((l.lane step.1).rotateLeft step.2)
  let l := l.setLane step.1 (l.lane step.1 + l.lane step.1.next)
  l.setLane step.1.next.next (l.lane step.1.next.next ^^^ l.lane step.1)

/-- One step of End in R104's words: XOR one lane into the next, rotate the first lane left, add it back. -/
def endStep (l : Lanes) (step : LaneName × Nat) : Lanes :=
  let l := l.setLane step.1.next (l.lane step.1.next ^^^ l.lane step.1)
  let l := l.setLane step.1 ((l.lane step.1).rotateLeft step.2)
  l.setLane step.1.next (l.lane step.1.next + l.lane step.1)

/-- The rotated lane and the rotation of each of Mix's 12 steps (R103). -/
def mixSteps : List (LaneName × Nat) :=
  [(.c, 50), (.d, 52), (.a, 30), (.b, 41), (.c, 54), (.d, 48), (.a, 38), (.b, 37), (.c, 62), (.d, 34), (.a, 5), (.b, 36)]

/-- The rotated lane and the rotation of each of End's 11 steps (R104). -/
def endSteps : List (LaneName × Nat) :=
  [(.c, 15), (.d, 52), (.a, 26), (.b, 51), (.c, 28), (.d, 9), (.a, 47), (.b, 54), (.c, 32), (.d, 25), (.a, 63)]

/-- A full block as R105 writes it, on the front 32 bytes of what is left of the key: the first two words into c and d, Mix, the
other two into a and b. -/
def streamBlock (K : List Byte) (l : Lanes) : Lanes :=
  let m := mix ⟨l.a, l.b, l.c + leWord (K.take 8), l.d + leWord ((K.drop 8).take 8)⟩
  ⟨m.a + leWord ((K.drop 16).take 8), m.b + leWord ((K.drop 24).take 8), m.c, m.d⟩

/-- The lanes before End, written as a stream that consumes the key from the front: 32 bytes while there are 32, then 16 if there
are 16, then the tail (R105 to R107). `L` is the length of the whole key; `fuel` bounds the number of blocks. -/
def streamAbsorb (L : Nat) : Nat → List Byte → Lanes → Lanes
  | 0, _, l => l
  | fuel + 1, K, l =>
    if 32 ≤ K.length then streamAbsorb L fuel (K.drop 32) (streamBlock K l)
    else if 16 ≤ K.length then
      foldTail L (K.drop 16) (mix ⟨l.a, l.b, l.c + leWord (K.take 8), l.d + leWord ((K.drop 8).take 8)⟩)
    else foldTail L K l

/-! ### Operand texts of the assembler (R79) -/

/-- A number as R79 lets it be written. -/
inductive NumberText where
  | decimal (n : Nat)
  | hexadecimal (n : Nat)
  deriving DecidableEq, Repr

/-- The number a text stands for. -/
def NumberText.value : NumberText → Nat
  | .decimal n => n
  | .hexadecimal n => n

/-- The text: decimal digits, or `0x` and hexadecimal digits. -/
def NumberText.text : NumberText → List Char
  | .decimal n => Nat.toDigits 10 n
  | .hexadecimal n => '0' :: 'x' :: Nat.toDigits 16 n

/-- A `<key>` or `<bytes>` operand as R79 lets it be written. -/
inductive KeyText where
  | quoted (t : List Char)
  | hexBytes (bs : List Byte)
  | le32 (n : NumberText)
  | le64 (n : NumberText)
  | zeros (n : NumberText)
  deriving DecidableEq, Repr

/-- The operand can be written: ASCII text without a quote in it, and numbers that fit. -/
def KeyText.Legal : KeyText → Prop
  | .quoted t => ∀ c ∈ t, c.toNat < 128 ∧ c ≠ quoteChar
  | .hexBytes _ => True
  | .le32 n => n.value < 2 ^ 32
  | .le64 n => n.value < 2 ^ 64
  | .zeros n => n.value < 2 ^ 32

/-- The bytes the operand stands for. -/
def KeyText.bytes : KeyText → List Byte
  | .quoted t => t.map fun c => BitVec.ofNat 8 c.toNat
  | .hexBytes bs => bs
  | .le32 n => leBytes 4 n.value
  | .le64 n => leBytes 8 n.value
  | .zeros n => List.replicate n.value 0x00#8

/-- `hh hh …`: two hexadecimal digits a byte, a space between bytes. -/
def hexBytesText : List Byte → List Char
  | [] => []
  | [b] => [Nat.digitChar (b.toNat / 16), Nat.digitChar (b.toNat % 16)]
  | b :: b' :: bs => Nat.digitChar (b.toNat / 16) :: Nat.digitChar (b.toNat % 16) :: ' ' :: hexBytesText (b' :: bs)

/-- The text of the operand. -/
def KeyText.text : KeyText → List Char
  | .quoted t => quoteChar :: t ++ [quoteChar]
  | .hexBytes bs => 'x' :: quoteChar :: hexBytesText bs ++ [quoteChar]
  | .le32 n => "le32(".toList ++ n.text ++ [')']
  | .le64 n => "le64(".toList ++ n.text ++ [')']
  | .zeros n => "zeros(".toList ++ n.text ++ [')']

/-- A line: the mnemonic, a space, the operands with a comma and a space between them. -/
def lineText (mnemonic : String) : List (List Char) → List Char
  | [] => mnemonic.toList
  | o :: os => mnemonic.toList ++ ' ' :: o ++ os.flatMap fun x => ',' :: ' ' :: x

end Sys2Proof.Machine
end

