-- ==== Sys2Proof/Certificates/Slice0/Obligations.lean ====
section
/-! DEFINITION. The statements for the provers, in the order of OBLIGATIONS.json. Each docstring names the rule of the spec it
formalises. -/

open Sys2Proof Sys2Proof.Machine

/-! ### Encoding -/

/-- Tier 1. Headers written out bit by bit from R71 and R79 decode to the commands they stand for (one per opcode). -/
def Obligations.WrittenOutWordsDecode : Prop :=
  decode ⟨0x0000000300007601#64, []⟩ = .ok (.config 6#4 7#4 3#32) ∧
  decode ⟨0x0000000200006402#64, [7, 0, 0, 0, 0, 0, 0, 1, 0xaa, 0x55]⟩ = .ok (.load 4#4 6#4 0x0100000000000007#64 [0xaa, 0x55]) ∧
  decode ⟨0x0000000000000003#64, []⟩ = .ok .clear ∧
  decode ⟨0x0000000100000004#64, [0x61]⟩ = .ok (.set [0x61]) ∧
  decode ⟨0x0000000200000005#64, [0x61, 0x62]⟩ = .ok (.test [0x61, 0x62]) ∧
  decode ⟨0x0000000400000006#64, [0x96, 0, 0, 0]⟩ = .ok (.probe [0x96, 0, 0, 0]) ∧
  decode ⟨0x0000000000000007#64, []⟩ = .ok (.digest []) ∧
  decode ⟨0x0000000600000008#64, []⟩ = .ok (.rdreg 6#32) ∧
  decode ⟨0x0001ffff00000009#64, []⟩ = .ok (.rdbuf 131071#32)

/-- Tier 3. Decoding what the encoder writes gives the instruction back, for every command and every operand (R71 to R73, R79). -/
def Obligations.DecodeOfEncode : Prop :=
  ∀ i : Instr, i.wellFormed = true → decode (encode i) = .ok i

/-- Tier 2. The other direction: a command that decodes is the encoding of what it decodes to, so each instruction has one encoding
(R70, R73, R78). -/
def Obligations.EncodeOfDecode : Prop :=
  ∀ (c : Command) (i : Instr), decode c = .ok i → encode i = c ∧ i.wellFormed = true

/-- Tier 2. The decoder accepts exactly the commands that R74 calls well-formed. -/
def Obligations.DecoderAcceptsExactlyWellFormed : Prop :=
  ∀ c : Command, (∃ i, decode c = .ok i) ↔ c.wellFormed = true

/-- Tier 2. A well-formed command sent as a byte stream, header little-endian first, is cut off the stream whole, whatever
follows it (R76). -/
def Obligations.ByteStreamRoundTrip : Prop :=
  ∀ (c : Command) (rest : List Byte), c.wellFormed = true →
    c.bytes.take 8 = leBytes 8 c.header.toNat ∧ c.bytes.drop 8 = c.payload ∧ parseCommand (c.bytes ++ rest) = .ok (c, rest)

/-- Tier 1. A response is 32 bytes: STATUS, seven zero bytes, then the three words little-endian (R77); STATUS is the code R200 gives
each status. -/
def Obligations.ResponseBytesLayout : Prop :=
  (∀ r : Response, r.bytes.length = 32 ∧ r.bytes.take 1 = [r.status.code] ∧ (r.bytes.drop 1).take 7 = List.replicate 7 0#8 ∧
    leWord ((r.bytes.drop 8).take 8) = r.res0 ∧ leWord ((r.bytes.drop 16).take 8) = r.res1 ∧
    leWord ((r.bytes.drop 24).take 8) = r.res2) ∧
  Status.ok.code = 0x00#8 ∧ Status.invalidParameter.code = 0x01#8 ∧ Status.capacityOverflow.code = 0x02#8 ∧
  Status.notConfigured.code = 0x03#8 ∧ Status.illegalCommand.code = 0x04#8 ∧ Status.outOfRange.code = 0x05#8

/-- Tier 2. Every line the assembler accepts writes a well-formed command (R74, R79).
Which blanks and texts are accepted is the model's choice (log 18). -/
def Obligations.AssembledLinesAreWellFormed : Prop :=
  ∀ (line : List Char) (c : Command), assembleLine line = some c → c.wellFormed = true

/-! ### Reset -/

/-- Tier 1. The state after reset, and the state a reset leaves from any state (R230).
That reset reaches the engine as an input of the port (log 7), and that no address exists while it is unconfigured (log 4), are the model's
choices. -/
def Obligations.ResetLeavesRegistersZero : Prop :=
  State.reset.engine = ⟨0#1, 0#4, 0#4, 0#32, 0#64, [], State.reset.bufBytesMax⟩ ∧ State.reset.port = .idle ∧
  ∀ (s : State) (rest : List HostInput), s.inputs = .reset :: rest →
    ∃ t, step s = .next t ∧ t.cfgValid = 0#1 ∧ t.way = 0#4 ∧ t.pageLevel = 0#4 ∧ t.pageCount = 0#32 ∧ t.uniqueCount = 0#64 ∧
      t.port = .idle ∧ t.bufBytesMax = s.bufBytesMax ∧ ∀ a, t.memReadByte a = none

/-- Tier 1. Reset during a command: the command is abandoned without a response, and the state is that after reset (R231).
That reset is an input in State, and that the record of responses survives it, are the model's choices (log 2, log 7). -/
def Obligations.ResetDuringCommandAbandonsIt : Prop :=
  ∀ (s : State) (c : Command) (rest : List HostInput),
    (s.port = .busy c ∧ s.inputs = .reset :: rest) ∨ (s.port = .idle ∧ s.inputs = .resetDuring c :: rest) →
    ∃ t, step s = .next t ∧ t.responses = s.responses ∧ t.engine = { State.reset.engine with bufBytesMax := s.bufBytesMax } ∧
      t.port = .idle

/-- Tier 1. The state after reset meets the configuration invariant of R30, with the range of BUF_BYTES_MAX and the canonical form of BUF
that State.Inv adds. The value 2^20 of BUF_BYTES_MAX (log 3), BUF held as absent (log 4) and the canonical form (log 5) are the model's
choices. -/
def Obligations.ResetMeetsInvariant : Prop := State.reset.Inv

/-! ### The machine as a whole -/

/-- Tier 1. A step at an idle port whose next input is a command runs that command, whatever it is, in the state in which the port has
accepted it, and the hosts' other inputs wait; a busy port runs the command it is on (R58, R233, R236). When the command decodes, the
step is its meaning; when it is not well-formed, the step answers ILLEGAL_COMMAND and changes no engine state (R203). The list of inputs
is the model's choice (log 1, log 17). -/
def Obligations.StepRunsTheDecodedCommand : Prop :=
  (∀ (s : State) (c : Command) (rest : List HostInput), s.port = .idle → s.inputs = .command c :: rest →
    step s = runCommand c ((s.setInputs rest).accept c) ∧
    (∀ i, decode c = .ok i → step s = exec i ((s.setInputs rest).accept c)) ∧
    (c.wellFormed = false → ∃ t, step s = .next t ∧ Answered (s.setInputs rest) t (errorResponse .illegalCommand) ∧
      t.engine = s.engine)) ∧
  (∀ (s : State) (c : Command), s.port = .busy c → s.inputs.head? ≠ some .reset →
    step s = runCommand c s ∧
    (∀ i, decode c = .ok i → step s = exec i s) ∧
    (c.wellFormed = false → ∃ t, step s = .next t ∧ Answered s t (errorResponse .illegalCommand) ∧ t.engine = s.engine))

/-- Tier 3. Every step keeps the configuration invariant of R30, with the buffer's canonical form.
The canonical form is the model's (log 5), and R30 is the spec's own inference. -/
def Obligations.StepKeepsInvariant : Prop :=
  ∀ s t : State, s.Inv → step s = .next t → t.Inv

/-- Tier 2. From a state that meets the invariant a step never stops: every command completes (R77, R236).
An idle port with no input stays as it is, by the model's choice (log 1). -/
def Obligations.StepNeverStops : Prop :=
  ∀ s : State, s.Inv → ∃ t, step s = .next t

/-- Tier 2. A sequence of commands presented to an idle port is answered whole: as many steps as commands, one response for each,
none dropped or merged, the port idle after the last (R77, R233).
The lists of inputs and of responses are the model's
choices (log 1, log 2). -/
def Obligations.EveryCommandGetsOneResponse : Prop :=
  ∀ (cs : List Command) (s : State), s.Inv → s.port = .idle → s.inputs = cs.map .command →
    ∃ t, Host.Core.run Sys2Proof.core cs.length s = .next t ∧ t.inputs = [] ∧ t.port = .idle ∧
      ∃ new : List Response, t.responses = new ++ s.responses ∧ new.length = cs.length

/-- Tier 2. Commands take effect whole, in the order in which the port accepts them: running `c` then the rest is running the rest
from the state `c` leaves, and nothing still waiting is seen (R58, R59).
The list of inputs is the model's choice (log 1). -/
def Obligations.CommandsTakeEffectInAcceptanceOrder : Prop :=
  ∀ (s t : State) (c : Command) (rest : List HostInput) (k : Nat),
    s.port = .idle → s.inputs = .command c :: rest → step s = .next t →
    t.inputs = rest ∧ Host.Core.run Sys2Proof.core (k + 1) s = Host.Core.run Sys2Proof.core k t ∧
    ∀ (s' : State) (rest' : List HostInput), s'.port = .idle → s'.inputs = .command c :: rest' → s'.engine = s.engine →
      ∃ t', step s' = .next t' ∧ t'.engine = t.engine ∧ t'.inputs = rest' ∧ t'.responses.head? = t.responses.head?

/-- Tier 2. The same engine state and the same command give the same response and the same next engine state, whatever was answered
before and whatever waits at the port (R18, R31, R34).
The record of responses is the model's choice (log 2). -/
def Obligations.SameEngineSameCommandSameAnswer : Prop :=
  ∀ (c : Command) (s s' t : State), s.engine = s'.engine → runCommand c s = .next t →
    ∃ t' r, runCommand c s' = .next t' ∧ t'.engine = t.engine ∧
      t.responses = r :: s.responses ∧ t'.responses = r :: s'.responses

/-- Tier 2. No step changes `BUF_BYTES_MAX`, reset included (R29, R230). -/
def Obligations.BufBytesMaxNeverChanges : Prop :=
  ∀ s t : State, step s = .next t → t.bufBytesMax = s.bufBytesMax

/-- Tier 2. Only reset returns `CFG_VALID` to 0 (R21, R174).
Reset as an input is the model's choice (log 7). -/
def Obligations.OnlyResetDeconfigures : Prop :=
  ∀ s t : State, step s = .next t → s.cfgValid = 1#1 → t.cfgValid = 0#1 →
    s.inputs.head? = some .reset ∨ ∃ c, s.inputs.head? = some (.resetDuring c)

/-- Tier 2. Who writes what (R20): only CONFIG and LOAD write CFG_VALID, WAY, PAGE_LEVEL and PAGE_COUNT, only they and SET write
UNIQUE_COUNT, only they, SET and CLEAR write BUF. -/
def Obligations.WritersOfEachRegister : Prop :=
  ∀ (i : Instr) (s t : State), exec i s = .next t →
    (makesFilter i = false → SameConfiguration s t) ∧
    (makesFilter i = false → (∀ key, i ≠ .set key) → t.uniqueCount = s.uniqueCount) ∧
    (makesFilter i = false → (∀ key, i ≠ .set key) → i ≠ .clear → t.buf = s.buf)

/-- Tier 2. A response once given never changes: a step adds at most one in front (R65, R77).
The record of responses is the model's choice (log 2). -/
def Obligations.GivenResponsesNeverChange : Prop :=
  ∀ s t : State, step s = .next t → t.responses = s.responses ∨ ∃ r, t.responses = r :: s.responses

/-! ### Errors -/

/-- Tier 2. ILLEGAL_COMMAND is reported exactly for a command that is not well-formed, before any other check (R202, R203). -/
def Obligations.IllegalCommandExactlyWhenIllFormed : Prop :=
  ∀ (s t : State) (c : Command), runCommand c s = .next t →
    ∃ r, Answered s t r ∧ (r.status = .illegalCommand ↔ c.wellFormed = false) ∧
      (c.wellFormed = false → t.engine = s.engine ∧ r = errorResponse .illegalCommand)

/-- Tier 2. A command that ends with a status other than OK changes no engine state, has result words 0, and leaves the port idle
(R201). -/
def Obligations.FailedCommandChangesNothing : Prop :=
  ∀ (s t : State) (c : Command), runCommand c s = .next t →
    ∃ r, Answered s t r ∧ (r.status ≠ .ok → t.engine = s.engine ∧ (∀ a, t.memReadByte a = s.memReadByte a) ∧
      r.res0 = 0#64 ∧ r.res1 = 0#64 ∧ r.res2 = 0#64)

/-- Tier 2. NOT_CONFIGURED is reported exactly by CLEAR, SET, TEST, PROBE and RDBUF while `CFG_VALID = 0` (R204); RDBUF reports it
rather than OUT_OF_RANGE (R202). -/
def Obligations.NotConfiguredExactlyWhen : Prop :=
  (∀ (i : Instr) (s : State), s.cfgValid = 0#1 → needsFilter i = true → ∃ t, exec i s = .next t ∧
    t.engine = s.engine ∧ Answered s t (errorResponse .notConfigured)) ∧
  (∀ (i : Instr) (s t : State) (r : Response), exec i s = .next t → t.responses = r :: s.responses →
    (r.status = .notConfigured ↔ s.cfgValid = 0#1 ∧ needsFilter i = true))

/-- Tier 2. INVALID_PARAMETER is reported exactly by CONFIG and LOAD under the bounds of R205. -/
def Obligations.InvalidParameterExactlyWhen : Prop :=
  ∀ (i : Instr) (s t : State) (r : Response), exec i s = .next t → t.responses = r :: s.responses →
    (r.status = .invalidParameter ↔
      (∃ way lvl cnt, i = .config way lvl cnt ∧ (way.toNat < 4 ∨ 8 < way.toNat ∨ lvl.toNat < 8 - 8 / way.toNat ∨ 13 < lvl.toNat ∨
        cnt.toNat < 1 ∨ 2 ^ 31 - 1 < cnt.toNat)) ∨
      (∃ way lvl uniq image, i = .load way lvl uniq image ∧ (way.toNat < 4 ∨ 8 < way.toNat ∨ lvl.toNat < 8 - 8 / way.toNat ∨
        13 < lvl.toNat ∨ image.length = 0 ∨ ¬ 2 ^ lvl.toNat ∣ image.length)))

/-- Tier 2. CAPACITY_OVERFLOW is reported exactly by a CONFIG or LOAD whose parameters are legal and whose buffer exceeds
`BUF_BYTES_MAX` (R202, R206). -/
def Obligations.CapacityOverflowExactlyWhen : Prop :=
  ∀ (i : Instr) (s t : State) (r : Response), exec i s = .next t → t.responses = r :: s.responses →
    (r.status = .capacityOverflow ↔
      (∃ way lvl cnt, i = .config way lvl cnt ∧ 4 ≤ way.toNat ∧ way.toNat ≤ 8 ∧ 8 - 8 / way.toNat ≤ lvl.toNat ∧ lvl.toNat ≤ 13 ∧
        1 ≤ cnt.toNat ∧ cnt.toNat ≤ 2 ^ 31 - 1 ∧ s.bufBytesMax.toNat < cnt.toNat * 2 ^ lvl.toNat) ∨
      (∃ way lvl uniq image, i = .load way lvl uniq image ∧ 4 ≤ way.toNat ∧ way.toNat ≤ 8 ∧ 8 - 8 / way.toNat ≤ lvl.toNat ∧
        lvl.toNat ≤ 13 ∧ image.length ≠ 0 ∧ 2 ^ lvl.toNat ∣ image.length ∧ s.bufBytesMax.toNat < image.length))

/-- Tier 2. OUT_OF_RANGE is reported exactly by RDREG above register 7 and, on a configured engine, by RDBUF from word
`BUF_BYTES / 8` on (R202, R207). -/
def Obligations.OutOfRangeExactlyWhen : Prop :=
  ∀ (i : Instr) (s t : State) (r : Response), exec i s = .next t → t.responses = r :: s.responses →
    (r.status = .outOfRange ↔
      (∃ reg, i = .rdreg reg ∧ 7 < reg.toNat) ∨
      (∃ index, i = .rdbuf index ∧ s.cfgValid = 1#1 ∧ s.bufBytes / 8 ≤ index.toNat))

/-- Tier 2. On a configured engine SET, TEST, CLEAR and PROBE always end with OK, for every key, and DIGEST always does (R208). -/
def Obligations.KeyCommandsNeverFail : Prop :=
  ∀ (i : Instr) (s : State), s.Inv →
    (s.cfgValid = 1#1 ∧ (i = .clear ∨ ∃ key, i = .set key ∨ i = .test key ∨ i = .probe key)) ∨ (∃ key, i = .digest key) →
    ∃ t r, exec i s = .next t ∧ Answered s t r ∧ r.status = .ok

/-! ### Configuration and read-back -/

/-- Tier 1. The least page level of each legal way: 6 at way 4, 7 above (R171). -/
def Obligations.LeastPageLevelOfEachWay : Prop :=
  ∀ way : Nat, 4 ≤ way → way ≤ 8 → lvlMin way = 8 - 8 / way ∧ lvlMin way = if way = 4 then 6 else 7

/-- Tier 2. CONFIG with legal parameters that fit completes: the registers hold them, the count is 0, and every byte of the new
buffer is 0, whatever the engine held (R170, R174).
Listing no zero byte is the model's form (log 16). -/
def Obligations.ConfigMakesEmptyFilter : Prop :=
  ∀ (s : State) (way lvl : BitVec 4) (cnt : BitVec 32),
    4 ≤ way.toNat → way.toNat ≤ 8 → 8 - 8 / way.toNat ≤ lvl.toNat → lvl.toNat ≤ 13 → 1 ≤ cnt.toNat → cnt.toNat ≤ 2 ^ 31 - 1 →
    cnt.toNat * 2 ^ lvl.toNat ≤ s.bufBytesMax.toNat →
    ∃ t, exec (.config way lvl cnt) s = .next t ∧ Answered s t ⟨.ok, 0#64, 0#64, 0#64⟩ ∧
      t.cfgValid = 1#1 ∧ t.way = way ∧ t.pageLevel = lvl ∧ t.pageCount = cnt ∧ t.uniqueCount = 0#64 ∧
      t.bufBytes = cnt.toNat * 2 ^ lvl.toNat ∧ (∀ a, t.memReadByte a = if a < cnt.toNat * 2 ^ lvl.toNat then some 0#8 else none)

/-- Tier 2. LOAD with legal parameters and an image that fits completes: the registers, the count and every byte of the buffer come
from the command (R172, R174). -/
def Obligations.LoadRebuildsFilter : Prop :=
  ∀ (s : State) (way lvl : BitVec 4) (uniq : Word) (image : List Byte),
    image.length ≤ 2 ^ 32 - 1 → 4 ≤ way.toNat → way.toNat ≤ 8 → 8 - 8 / way.toNat ≤ lvl.toNat → lvl.toNat ≤ 13 →
    image.length ≠ 0 → 2 ^ lvl.toNat ∣ image.length → image.length ≤ s.bufBytesMax.toNat →
    ∃ t, exec (.load way lvl uniq image) s = .next t ∧ Answered s t ⟨.ok, 0#64, 0#64, 0#64⟩ ∧
      t.cfgValid = 1#1 ∧ t.way = way ∧ t.pageLevel = lvl ∧ t.pageCount.toNat = image.length / 2 ^ lvl.toNat ∧
      t.uniqueCount = uniq ∧ t.bufBytes = image.length ∧ (∀ a, t.memReadByte a = image[a]?)

/-- Tier 2. RDREG: each register of R35 zero-extended, 0 to 6 reading 0 while not configured, and OUT_OF_RANGE above 7 (R27, R28, R173);
nothing is written. -/
def Obligations.RdregReadsEachRegister : Prop :=
  ∀ (s : State) (reg : BitVec 32), s.Inv →
    (reg.toNat ≤ 7 → ∃ t v, exec (.rdreg reg) s = .next t ∧ Answered s t ⟨.ok, v, 0#64, 0#64⟩ ∧ t.engine = s.engine ∧
      (reg.toNat = 0 → v.toNat = s.way.toNat) ∧ (reg.toNat = 1 → v.toNat = s.pageLevel.toNat) ∧
      (reg.toNat = 2 → v.toNat = s.pageCount.toNat) ∧ (reg.toNat = 3 → v = s.uniqueCount) ∧
      (reg.toNat = 4 → s.cfgValid = 1#1 → v.toNat = s.pageCount.toNat * 2 ^ s.pageLevel.toNat * 8 / s.way.toNat) ∧
      (reg.toNat = 5 → s.cfgValid = 1#1 → v.toNat = s.pageCount.toNat * 2 ^ s.pageLevel.toNat) ∧
      (reg.toNat = 6 → v.toNat = s.cfgValid.toNat) ∧ (reg.toNat = 7 → v = s.bufBytesMax) ∧
      (reg.toNat ≤ 6 → s.cfgValid = 0#1 → v = 0#64)) ∧
    (7 < reg.toNat → ∃ t, exec (.rdreg reg) s = .next t ∧ Answered s t (errorResponse .outOfRange) ∧ t.engine = s.engine)

/-- Tier 2. RDBUF on a configured engine: a word inside the buffer is the eight bytes from `8 × index`, little-endian; from
`BUF_BYTES / 8` on it ends with OUT_OF_RANGE (R55, R175); nothing is written. -/
def Obligations.RdbufReadsEightBytes : Prop :=
  ∀ (s : State) (index : BitVec 32), s.cfgValid = 1#1 →
    (index.toNat < s.bufBytes / 8 → ∃ t v, exec (.rdbuf index) s = .next t ∧ Answered s t ⟨.ok, v, 0#64, 0#64⟩ ∧
      t.engine = s.engine ∧ ∀ k, k < 8 → v.toNat / 2 ^ (8 * k) % 2 ^ 8 = (s.buf.read (8 * index.toNat + k)).toNat) ∧
    (s.bufBytes / 8 ≤ index.toNat → ∃ t, exec (.rdbuf index) s = .next t ∧ Answered s t (errorResponse .outOfRange) ∧
      t.engine = s.engine)

/-- Tier 2. Export and re-import: loading the words RDBUF gives for a filter, with its way, pageLevel and count, into any engine of the
same size gives the same filter (R172, R175; the source's round-trip property, 95_test_vectors.md V5 and P1). -/
def Obligations.ExportedFilterReloads : Prop :=
  ∀ (s u : State) (words : List Word), s.Inv → s.cfgValid = 1#1 → s.bufBytes ≤ 2 ^ 32 - 1 → u.bufBytesMax = s.bufBytesMax →
    words.length = s.bufBytes / 8 →
    (∀ (i : Nat) (w : Word), words[i]? = some w →
      ∃ t, exec (.rdbuf (BitVec.ofNat 32 i)) s = .next t ∧ t.responses = ⟨.ok, w, 0#64, 0#64⟩ :: s.responses) →
    ∃ t, exec (.load s.way s.pageLevel s.uniqueCount (words.flatMap fun w => leBytes 8 w.toNat)) u = .next t ∧
      t.engine = s.engine

/-! ### The digest -/

/-- Tier 1. Mix is the 12 rotate, add, XOR steps of R103's table, and End the 11 XOR, rotate, add steps of R104's table, for every
value of the four lanes. The left rotations and End's pattern are the spec's own general knowledge (log 8). -/
def Obligations.MixAndEndFollowTheirTables : Prop :=
  (∀ l : Lanes, mix l = mixSteps.foldl mixStep l) ∧ (∀ l : Lanes, finalise l = endSteps.foldl endStep l)

/-- Tier 2. The rotations of the digest and of the selector are left rotations of the whole word (R12, R101, R131).
The direction is the spec's own general knowledge (log 8). -/
def Obligations.RotationsRotateLeft : Prop :=
  (∀ (x : Word) (k : Nat), 1 ≤ k → k ≤ 63 → rotl64 x k = x.rotateLeft k) ∧
  (∀ (x : BitVec 32) (k : Nat), 1 ≤ k → k ≤ 31 → rotl32 x k = x.rotateLeft k)

/-- Tier 2. The tail rule byte by byte: the length goes to the top byte of d; each of the first eight bytes is added to c and each of
the next seven to d at its own place, zero-extended; no byte at all adds M to both (R107, the unsigned variant of R9).
M and the tail table are the spec's own general knowledge
(log 8), the unsigned variant its own decision (log 9). -/
def Obligations.TailBytesAddAtTheirPlaces : Prop :=
  ∀ (L : Nat) (T : List Byte) (l : Lanes), T.length ≤ 15 →
    (foldTail L T l).a = l.a ∧ (foldTail L T l).b = l.b ∧
    (foldTail L T l).c.toNat = (l.c.toNat + if T.length = 0 then magic.toNat else
      ((List.range (min T.length 8)).map fun t => (T.getD t 0#8).toNat * 2 ^ (8 * t)).sum) % 2 ^ 64 ∧
    (foldTail L T l).d.toNat = (l.d.toNat + L % 256 * 2 ^ 56 + if T.length = 0 then magic.toNat else
      ((List.range (T.length - 8)).map fun t => (T.getD (8 + t) 0#8).toNat * 2 ^ (8 * t)).sum) % 2 ^ 64

/-- Tier 2. Consuming the key by index, as R109 writes it, is consuming it as a stream from the front, from the lanes (0, 0, M, M) with
M = 0xdeadbeefdeadbeef (R101, R102): 32 bytes at a time, then 16, then the tail (R105, R106, R109). A full block adds its first two words to
c and d, mixes, and adds its other two words to a and b (R105). M and the block order rest on log 8. -/
def Obligations.DigestConsumesKeyAsStream : Prop :=
  (∀ K : List Byte, absorb K =
    streamAbsorb K.length (K.length / 32 + 1) K ⟨0#64, 0#64, 0xdeadbeefdeadbeef#64, 0xdeadbeefdeadbeef#64⟩) ∧
  ∀ (K : List Byte) (p : Nat) (l : Lanes),
    let m := mix ⟨l.a, l.b, l.c + leWord ((K.drop p).take 8), l.d + leWord ((K.drop (p + 8)).take 8)⟩
    absorbBlock K p l =
      ⟨m.a + leWord ((K.drop (p + 16)).take 8), m.b + leWord ((K.drop (p + 24)).take 8), m.c, m.d⟩

/-- Tier 2. A key of fewer than 16 bytes uses no Mix round, and one of 16 to 31 bytes uses one (R106, R109).
The condition r ≥ 16 is the spec's own correction (log 8). -/
def Obligations.ShortKeysUseAtMostOneRound : Prop :=
  ∀ K : List Byte,
    (K.length < 16 → absorb K = foldTail K.length K Lanes.start) ∧
    (16 ≤ K.length → K.length < 32 →
      absorb K = foldTail K.length (K.drop 16) (mix ⟨0#64, 0#64, magic + leWord (K.take 8), magic + leWord ((K.drop 8).take 8)⟩))

/-- Tier 1. DIGEST answers the digest in any engine state and writes nothing (R110). The digest is lanes a and b of End applied to the
lanes that have consumed the key (R108, R109), and the constant M is 0xdeadbeefdeadbeef (R101; the spec's own general knowledge,
log 8). -/
def Obligations.DigestCommandAnswersDigest : Prop :=
  (∀ (s : State) (key : List Byte), ∃ t, exec (.digest key) s = .next t ∧
    Answered s t ⟨.ok, (digest key).1, (digest key).2, 0#64⟩ ∧ t.engine = s.engine) ∧
  (∀ K : List Byte, (digest K).1 = (finalise (absorb K)).a ∧ (digest K).2 = (finalise (absorb K)).b) ∧
  magic = 0xdeadbeefdeadbeef#64

/-! ### Page and bit positions -/

/-- Tier 2. The selector is the fold of the four 32-bit lanes of the digest, lane 0 in the low word's low half (R130 to R132).
Lane order and rotation direction are log 10 and
log 8. -/
def Obligations.SelectorFoldsFourLanes : Prop :=
  ∀ key : List Byte,
    selector (digestValue key) =
      ((digest key).1.setWidth 32).rotateLeft 8 ^^^ (((digest key).1 >>> 32).setWidth 32).rotateLeft 6 ^^^
      ((digest key).2.setWidth 32).rotateLeft 4 ^^^ (((digest key).2 >>> 32).setWidth 32).rotateLeft 2

/-- Tier 2. The eight codes are the 16-bit fields of the digest from the low end up, and each bit position keeps the low
PAGE_LEVEL + 3 bits of its code (R135, R136).
The order of the codes is the spec's decision D12 (log 10). -/
def Obligations.BitPositionsMaskTheCodes : Prop :=
  ∀ (s : State) (key : List Byte) (j : Nat), j < 8 → s.pageLevel.toNat ≤ 13 →
    (s.bitPosition (digestValue key) j).toNat =
      ((digest key).2.toNat * 2 ^ 64 + (digest key).1.toNat) / 2 ^ (16 * j) % 2 ^ (s.pageLevel.toNat + 3) ∧
    (s.bitPosition (digestValue key) j).toNat < 2 ^ (s.pageLevel.toNat + 3)

/-- Tier 2. On a configured engine there are WAY probes, and probe j is byte b_j >> 3 of the page the selector picks and the mask
1 << (b_j & 7), for j = 0 to WAY − 1 in that order; so every probe of one key lies in that page of the buffer (R133, R134, R137, R138).
The unsigned modulus is the spec's decision D14 (log 10). -/
def Obligations.ProbesStayInOnePage : Prop :=
  ∀ (s : State) (key : List Byte), s.Inv → s.cfgValid = 1#1 →
    let Pg := (selector (digestValue key)).toNat % s.pageCount.toNat
    let b := fun j => (s.bitPosition (digestValue key) j).toNat
    Pg < s.pageCount.toNat ∧ (s.probes key).length = s.way.toNat ∧
    (∀ j, j < s.way.toNat → (s.probes key)[j]? = some (Pg * 2 ^ s.pageLevel.toNat + b j / 8, 1#8 <<< (b j % 8))) ∧
    ∀ p ∈ s.probes key, Pg * 2 ^ s.pageLevel.toNat ≤ p.1 ∧ p.1 < (Pg + 1) * 2 ^ s.pageLevel.toNat ∧ p.1 < s.bufBytes

/-- Tier 2. Byte and mask of a bit position name bit `k & 7`, least significant first, of byte `k >> 3` of the page (R52, R137). -/
def Obligations.MaskNamesTheBitOfThePage : Prop :=
  ∀ (s : State) (p : Nat) (b : BitVec 16),
    bitIsSet (s.buf.read (probeAddress (p <<< s.pageLevel.toNat) b)) (probeMask b) = s.pageBit p b.toNat

/-- Tier 2. PROBE on a configured engine answers the page offset and all eight masked positions, four to a word, lowest first, and
writes nothing (R139). -/
def Obligations.ProbeAnswersOffsetAndPositions : Prop :=
  ∀ (s : State) (key : List Byte), s.Inv → s.cfgValid = 1#1 →
    ∃ t r0 r1 r2, exec (.probe key) s = .next t ∧ Answered s t ⟨.ok, r0, r1, r2⟩ ∧ t.engine = s.engine ∧
      r0.toNat = (selector (digestValue key)).toNat % s.pageCount.toNat * 2 ^ s.pageLevel.toNat ∧
      ∀ j, j < 4 →
        r1.extractLsb' (16 * j) 16 = s.bitPosition (digestValue key) j ∧
        r2.extractLsb' (16 * j) 16 = s.bitPosition (digestValue key) (4 + j)

/-! ### SET, TEST and CLEAR -/

/-- Tier 2. SET on a configured engine completes: RES0 is 0 exactly when every probed bit was already 1, UNIQUE_COUNT goes up by one,
modulo 2^64, exactly when RES0 is 1, a bit of BUF is 1 afterwards exactly when it was 1 or is probed, and the configuration stays
(R25, R150). -/
def Obligations.SetInsertsTheKey : Prop :=
  ∀ (s : State) (key : List Byte), s.Inv → s.cfgValid = 1#1 →
    ∃ t, exec (.set key) s = .next t ∧ SameConfiguration s t ∧
      (s.allProbedBitsSet key → Answered s t ⟨.ok, 0#64, 0#64, 0#64⟩ ∧ t.uniqueCount = s.uniqueCount ∧ t.buf = s.buf) ∧
      (¬ s.allProbedBitsSet key → Answered s t ⟨.ok, 1#64, 0#64, 0#64⟩ ∧ t.uniqueCount = s.uniqueCount + 1#64) ∧
      ∀ (a k : Nat), (t.buf.read a).getLsbD k = true ↔
        (s.buf.read a).getLsbD k = true ∨ ∃ p ∈ s.probes key, p.1 = a ∧ p.2.getLsbD k = true

/-- Tier 2. The frame of SET: the configuration is unchanged, UNIQUE_COUNT is unchanged or one more, and every address that is not the
address of one of the key's probes reads as before (R57, R150). -/
def Obligations.SetFrame : Prop :=
  ∀ (s t : State) (key : List Byte), exec (.set key) s = .next t →
    SameConfiguration s t ∧ (t.uniqueCount = s.uniqueCount ∨ t.uniqueCount = s.uniqueCount + 1#64) ∧
    t.bufBytesMax = s.bufBytesMax ∧ t.inputs = s.inputs ∧
    ∀ a, (∀ p ∈ s.probes key, p.1 ≠ a) → t.memReadByte a = s.memReadByte a

/-- Tier 2. TEST on a configured engine completes with RES0 = 1 exactly when every probed bit is 1, and writes nothing (R151). -/
def Obligations.TestReportsAllProbedBits : Prop :=
  ∀ (s : State) (key : List Byte), s.Inv → s.cfgValid = 1#1 →
    ∃ t, exec (.test key) s = .next t ∧ t.engine = s.engine ∧
      (s.allProbedBitsSet key → Answered s t ⟨.ok, 1#64, 0#64, 0#64⟩) ∧
      (¬ s.allProbedBitsSet key → Answered s t ⟨.ok, 0#64, 0#64, 0#64⟩)

/-- Tier 2. On a buffer of all zeros every TEST answers 0, and on a buffer of all ones every TEST answers 1 (R151). -/
def Obligations.TestOnEmptyAndFullBuffer : Prop :=
  ∀ (s : State) (key : List Byte), s.Inv → s.cfgValid = 1#1 →
    ((∀ a, a < s.bufBytes → s.buf.read a = 0#8) →
      ∃ t, exec (.test key) s = .next t ∧ Answered s t ⟨.ok, 0#64, 0#64, 0#64⟩) ∧
    ((∀ a, a < s.bufBytes → s.buf.read a = 0xff#8) →
      ∃ t, exec (.test key) s = .next t ∧ Answered s t ⟨.ok, 1#64, 0#64, 0#64⟩)

/-- Tier 2. CLEAR on a configured engine completes: every byte of BUF is 0, and no register changes, UNIQUE_COUNT included (R152). -/
def Obligations.ClearZeroesTheBuffer : Prop :=
  ∀ s : State, s.cfgValid = 1#1 →
    ∃ t, exec .clear s = .next t ∧ Answered s t ⟨.ok, 0#64, 0#64, 0#64⟩ ∧ SameConfiguration s t ∧
      t.uniqueCount = s.uniqueCount ∧ t.bufBytes = s.bufBytes ∧ ∀ a, a < s.bufBytes → t.memReadByte a = some 0#8

/-- Tier 2. The frame of the commands that write nothing: TEST, PROBE, DIGEST, RDREG and RDBUF leave every register and every byte as
it was (R57). -/
def Obligations.ReadingCommandsFrame : Prop :=
  ∀ (i : Instr) (s t : State), readsOnly i = true → exec i s = .next t →
    t.engine = s.engine ∧ t.inputs = s.inputs ∧ ∀ a, t.memReadByte a = s.memReadByte a

/-- Tier 2. Monotonic fill: a command other than CLEAR, CONFIG and LOAD turns no bit of BUF from 1 to 0, the number of 1 bits never goes
down, and SET adds at most WAY of them (R153). -/
def Obligations.FillNeverDecreases : Prop :=
  ∀ (i : Instr) (s t : State), s.Inv → keepsBits i = true → exec i s = .next t →
    (∀ a k, (s.buf.read a).getLsbD k = true → (t.buf.read a).getLsbD k = true) ∧
    onesCount s.buf ≤ onesCount t.buf ∧ onesCount t.buf ≤ onesCount s.buf + s.way.toNat

/-- Tier 2. No false negatives: after SET K, TEST K answers 1, whatever commands other than CLEAR, CONFIG and LOAD come between
(R151). -/
def Obligations.NoFalseNegatives : Prop :=
  ∀ (s t u : State) (key : List Byte) (l : List Instr), s.Inv → s.cfgValid = 1#1 → exec (.set key) s = .next t →
    (∀ i ∈ l, keepsBits i = true) → runs l t u →
    ∃ v, exec (.test key) u = .next v ∧ Answered u v ⟨.ok, 1#64, 0#64, 0#64⟩

/-- Tier 2. A SET repeated at once answers 0 and leaves BUF and UNIQUE_COUNT as they were (R57, R150). -/
def Obligations.RepeatedSetChangesNothing : Prop :=
  ∀ (s t : State) (key : List Byte), s.Inv → s.cfgValid = 1#1 → exec (.set key) s = .next t →
    ∃ u, exec (.set key) t = .next u ∧ u.engine = t.engine ∧ Answered t u ⟨.ok, 0#64, 0#64, 0#64⟩

/-- Tier 3. Every step keeps the probed bits of a key set, unless it resets the engine or the command it runs is CLEAR, CONFIG or LOAD
(R151, R153). That reset is an input in State is the model's choice (log 7). -/
def Obligations.ProbedBitsStaySet : Prop :=
  ∀ (s t : State) (key : List Byte), s.Inv → s.cfgValid = 1#1 → s.allProbedBitsSet key → step s = .next t →
    (t.allProbedBitsSet key ∧ SameConfiguration s t) ∨
    (∃ c i, (s.port = .busy c ∨ s.port = .idle ∧ ∃ rest, s.inputs = .command c :: rest) ∧ decode c = .ok i ∧ keepsBits i = false) ∨
    (s.inputs.head? = some .reset ∨ ∃ c, s.inputs.head? = some (.resetDuring c))

/-! ### The assembler -/

/-- Tier 2. What each line of R79 writes: the header and payload of each mnemonic, for every number written in decimal or hexadecimal that
fits its field, and every form of key and register operand. -/
def Obligations.AssembledLinesWriteTheirCommands : Prop :=
  (∀ w l n : NumberText, w.value < 16 → l.value < 16 → n.value < 2 ^ 32 →
    assembleLine (lineText "CONFIG" [w.text, l.text, n.text]) =
      some ⟨BitVec.ofNat 64 (0x01 + w.value * 2 ^ 8 + l.value * 2 ^ 12 + n.value * 2 ^ 32), []⟩) ∧
  (∀ (w l u : NumberText) (b : KeyText), w.value < 16 → l.value < 16 → u.value < 2 ^ 64 → b.Legal → b.bytes.length < 2 ^ 32 →
    assembleLine (lineText "LOAD" [w.text, l.text, u.text, b.text]) =
      some ⟨BitVec.ofNat 64 (0x02 + w.value * 2 ^ 8 + l.value * 2 ^ 12 + b.bytes.length * 2 ^ 32), leBytes 8 u.value ++ b.bytes⟩) ∧
  assembleLine (lineText "CLEAR" []) = some ⟨0x03#64, []⟩ ∧
  (∀ k : KeyText, k.Legal → k.bytes.length < 2 ^ 32 →
    assembleLine (lineText "SET" [k.text]) = some ⟨BitVec.ofNat 64 (0x04 + k.bytes.length * 2 ^ 32), k.bytes⟩ ∧
    assembleLine (lineText "TEST" [k.text]) = some ⟨BitVec.ofNat 64 (0x05 + k.bytes.length * 2 ^ 32), k.bytes⟩ ∧
    assembleLine (lineText "PROBE" [k.text]) = some ⟨BitVec.ofNat 64 (0x06 + k.bytes.length * 2 ^ 32), k.bytes⟩ ∧
    assembleLine (lineText "DIGEST" [k.text]) = some ⟨BitVec.ofNat 64 (0x07 + k.bytes.length * 2 ^ 32), k.bytes⟩) ∧
  (∀ n : NumberText, n.value < 2 ^ 32 →
    assembleLine (lineText "RDREG" [n.text]) = some ⟨BitVec.ofNat 64 (0x08 + n.value * 2 ^ 32), []⟩ ∧
    assembleLine (lineText "RDBUF" [n.text]) = some ⟨BitVec.ofNat 64 (0x09 + n.value * 2 ^ 32), []⟩) ∧
  assembleLine (lineText "RDREG" ["WAY".toList]) = some ⟨0x0000000000000008#64, []⟩ ∧
  assembleLine (lineText "RDREG" ["PAGE_LEVEL".toList]) = some ⟨0x0000000100000008#64, []⟩ ∧
  assembleLine (lineText "RDREG" ["PAGE_COUNT".toList]) = some ⟨0x0000000200000008#64, []⟩ ∧
  assembleLine (lineText "RDREG" ["UNIQUE_COUNT".toList]) = some ⟨0x0000000300000008#64, []⟩ ∧
  assembleLine (lineText "RDREG" ["CAPACITY".toList]) = some ⟨0x0000000400000008#64, []⟩ ∧
  assembleLine (lineText "RDREG" ["BUF_BYTES".toList]) = some ⟨0x0000000500000008#64, []⟩ ∧
  assembleLine (lineText "RDREG" ["CFG_VALID".toList]) = some ⟨0x0000000600000008#64, []⟩ ∧
  assembleLine (lineText "RDREG" ["BUF_BYTES_MAX".toList]) = some ⟨0x0000000700000008#64, []⟩
end

