-- ==== Sys2Proof/Laws/Decode.lean ====
section
/-! SUPPORT. Header fields of an encoded header, opcode bytes, little-endian bytes: the facts about encodings that proofs cite. -/

namespace Sys2Proof

/-! ### Little-endian bytes -/

theorem leBytes_length (n v : Nat) : (leBytes n v).length = n := by
  induction n generalizing v with
  | zero => rfl
  | succ n ih => rw [leBytes, List.length_cons, ih]

/-- The bytes of `v` spell `v` modulo 256^n. -/
theorem leNat_leBytes (n v : Nat) : leNat (leBytes n v) = v % 256 ^ n := by
  induction n generalizing v with
  | zero => simp [leBytes, leNat, Nat.mod_one]
  | succ n ih =>
    have hm : v % 256 ^ (n + 1) = v % 256 + 256 * (v / 256 % 256 ^ n) := by
      rw [Nat.pow_succ, Nat.mul_comm (256 ^ n) 256, Nat.mod_mul]
    rw [leBytes, leNat, ih, BitVec.toNat_ofNat, hm]

theorem leNat_lt (bs : List Byte) : leNat bs < 256 ^ bs.length := by
  induction bs with
  | nil => simp [leNat]
  | cons b bs ih =>
    rw [leNat, List.length_cons, Nat.pow_succ]
    have := b.isLt
    omega

/-- Bytes are the bytes of the number they spell. -/
theorem leBytes_leNat (bs : List Byte) : leBytes bs.length (leNat bs) = bs := by
  induction bs with
  | nil => rfl
  | cons b bs ih =>
    have hb := b.isLt
    have h1 : (b.toNat + 256 * leNat bs) / 256 = leNat bs := by omega
    rw [List.length_cons, leNat, leBytes, h1, ih]
    congr 1
    apply BitVec.eq_of_toNat_eq
    rw [BitVec.toNat_ofNat]
    omega

/-- A word is spelt by its eight bytes. -/
theorem leWord_leBytes (w : Word) : leWord (leBytes 8 w.toNat) = w := by
  rw [leWord, leNat_leBytes]
  apply BitVec.eq_of_toNat_eq
  rw [BitVec.toNat_ofNat]
  have := w.isLt
  omega

/-- Eight bytes are the bytes of the word they spell. -/
theorem leBytes_leWord {bs : List Byte} (h : bs.length = 8) : leBytes 8 (leWord bs).toNat = bs := by
  have hlt := leNat_lt bs
  rw [leWord, BitVec.toNat_ofNat, Nat.mod_eq_of_lt (by rw [h] at hlt; exact hlt), ← h, leBytes_leNat]

/-! ### Opcodes -/

theorem Opcode.ofCode_code (op : Opcode) : Opcode.ofCode op.code = some op := by
  cases op <;> rfl

theorem Opcode.code_of_ofCode {b : Byte} {op : Opcode} (h : Opcode.ofCode b = some op) : op.code = b := by
  revert b; cases op <;> decide

/-- A byte names an opcode exactly when it is 0x01 to 0x09 (R72, R75). -/
theorem Opcode.ofCode_isSome_iff (b : Byte) : (Opcode.ofCode b).isSome ↔ 1 ≤ b.toNat ∧ b.toNat ≤ 9 := by
  revert b; decide

/-! ### Fields of a header, as numbers -/

theorem headerOpc_toNat (h : Word) : (headerOpc h).toNat = h.toNat % 2 ^ 8 := by
  simp [headerOpc, BitVec.extractLsb'_toNat]

theorem headerWay_toNat (h : Word) : (headerWay h).toNat = h.toNat / 2 ^ 8 % 2 ^ 4 := by
  simp [headerWay, BitVec.extractLsb'_toNat, Nat.shiftRight_eq_div_pow]

theorem headerPlvl_toNat (h : Word) : (headerPlvl h).toNat = h.toNat / 2 ^ 12 % 2 ^ 4 := by
  simp [headerPlvl, BitVec.extractLsb'_toNat, Nat.shiftRight_eq_div_pow]

theorem headerRsvd_toNat (h : Word) : (headerRsvd h).toNat = h.toNat / 2 ^ 16 % 2 ^ 16 := by
  simp [headerRsvd, BitVec.extractLsb'_toNat, Nat.shiftRight_eq_div_pow]

theorem headerArg_toNat (h : Word) : (headerArg h).toNat = h.toNat / 2 ^ 32 % 2 ^ 32 := by
  simp [headerArg, BitVec.extractLsb'_toNat, Nat.shiftRight_eq_div_pow]

theorem toNat_append_eq {m n : Nat} (x : BitVec m) (y : BitVec n) : (x ++ y).toNat = x.toNat * 2 ^ n + y.toNat := by
  rw [BitVec.toNat_append, ← Nat.shiftLeft_add_eq_or_of_lt y.isLt, Nat.shiftLeft_eq]

/-- An encoded header as a number: each field at its place (R71, R79). -/
theorem mkHeader_toNat (op : Opcode) (way plvl : BitVec 4) (arg : BitVec 32) :
    (mkHeader op way plvl arg).toNat =
      op.code.toNat + way.toNat * 2 ^ 8 + plvl.toNat * 2 ^ 12 + arg.toNat * 2 ^ 32 := by
  have h : (mkHeader op way plvl arg).toNat = (arg ++ 0#16 ++ plvl ++ way ++ op.code).toNat := rfl
  simp only [h, toNat_append_eq, BitVec.toNat_ofNat]
  omega

/-! ### Fields of an encoded header -/

section
variable (op : Opcode) (way plvl : BitVec 4) (arg : BitVec 32)

theorem headerOpc_mkHeader : headerOpc (mkHeader op way plvl arg) = op.code := by
  apply BitVec.eq_of_toNat_eq
  rw [headerOpc_toNat, mkHeader_toNat]
  have := op.code.isLt
  omega

theorem headerWay_mkHeader : headerWay (mkHeader op way plvl arg) = way := by
  apply BitVec.eq_of_toNat_eq
  rw [headerWay_toNat, mkHeader_toNat]
  have := op.code.isLt
  have := way.isLt
  omega

theorem headerPlvl_mkHeader : headerPlvl (mkHeader op way plvl arg) = plvl := by
  apply BitVec.eq_of_toNat_eq
  rw [headerPlvl_toNat, mkHeader_toNat]
  have := op.code.isLt
  have := way.isLt
  have := plvl.isLt
  omega

theorem headerRsvd_mkHeader : headerRsvd (mkHeader op way plvl arg) = 0#16 := by
  apply BitVec.eq_of_toNat_eq
  rw [headerRsvd_toNat, mkHeader_toNat, BitVec.toNat_ofNat]
  have := op.code.isLt
  have := way.isLt
  have := plvl.isLt
  omega

theorem headerArg_mkHeader : headerArg (mkHeader op way plvl arg) = arg := by
  apply BitVec.eq_of_toNat_eq
  rw [headerArg_toNat, mkHeader_toNat]
  have := op.code.isLt
  have := way.isLt
  have := plvl.isLt
  have := arg.isLt
  omega

end

/-- A header is put together again from its fields. -/
theorem mkHeader_fields {h : Word} {op : Opcode} (ho : headerOpc h = op.code) (hr : headerRsvd h = 0#16) :
    mkHeader op (headerWay h) (headerPlvl h) (headerArg h) = h := by
  apply BitVec.eq_of_toNat_eq
  have ho' := congrArg BitVec.toNat ho
  have hr' := congrArg BitVec.toNat hr
  rw [headerOpc_toNat] at ho'
  rw [headerRsvd_toNat, BitVec.toNat_ofNat] at hr'
  rw [mkHeader_toNat, headerWay_toNat, headerPlvl_toNat, headerArg_toNat]
  have := h.isLt
  omega

/-- What decoding answers when it answers an instruction: every check of R74 passed, and the instruction is the opcode's, built
from the header and the payload. -/
theorem decode_eq_ok {c : Command} {i : Instr} (h : decode c = .ok i) :
    ∃ op : Opcode, headerOpc c.header = op.code ∧ headerRsvd c.header = 0#16 ∧
      (op.takesParameters = false → headerWay c.header = 0#4 ∧ headerPlvl c.header = 0#4) ∧
      (op = .clear → headerArg c.header = 0#32) ∧
      c.payload.length = op.payloadLength (headerArg c.header) ∧ i = op.instr c.header c.payload := by
  unfold decode at h
  split at h
  · cases h
  · next op hop =>
    by_cases h1 : headerRsvd c.header = 0#16
    · by_cases h2 : op.takesParameters = false ∧ (headerWay c.header ≠ 0#4 ∨ headerPlvl c.header ≠ 0#4)
      · rw [if_neg (not_not.2 h1), if_pos h2] at h
        cases h
      · by_cases h3 : op = .clear ∧ headerArg c.header ≠ 0#32
        · rw [if_neg (not_not.2 h1), if_neg h2, if_pos h3] at h
          cases h
        · by_cases h4 : c.payload.length = op.payloadLength (headerArg c.header)
          · rw [if_neg (not_not.2 h1), if_neg h2, if_neg h3, if_neg (not_not.2 h4)] at h
            exact ⟨op, (Opcode.code_of_ofCode hop).symm, h1, by tauto, by tauto, h4, by cases h; rfl⟩
          · rw [if_neg (not_not.2 h1), if_neg h2, if_neg h3, if_pos h4] at h
            cases h
    · rw [if_pos h1] at h
      cases h

/-- A command whose fields pass every check of R74 decodes to its opcode's instruction. -/
theorem decode_of_fields {c : Command} {op : Opcode} (ho : headerOpc c.header = op.code)
    (hr : headerRsvd c.header = 0#16)
    (hp : op.takesParameters = false → headerWay c.header = 0#4 ∧ headerPlvl c.header = 0#4)
    (hc : op = .clear → headerArg c.header = 0#32)
    (hl : c.payload.length = op.payloadLength (headerArg c.header)) :
    decode c = .ok (op.instr c.header c.payload) := by
  unfold decode
  rw [ho, Opcode.ofCode_code]
  dsimp only
  rw [if_neg (by simpa using hr), if_neg, if_neg, if_neg (by simpa using hl)]
  · rintro ⟨h1, h2⟩; exact h2 (hc h1)
  · rintro ⟨h1, h2⟩
    obtain ⟨hw, hq⟩ := hp h1
    exact h2.elim (· hw) (· hq)

end Sys2Proof
end

