-- ==== Sys2Proof/Laws/Assembler.lean ====
section
/-! SUPPORT. What each part of the assembler's reader answers on the texts R79 writes: digits, numbers, keys, operands, lines. -/

namespace Sys2Proof.Machine

/-! ### Numbers -/

theorem digitValue_digitChar {d : Nat} (h : d < 16) : digitValue (Nat.digitChar d) = some d := by
  have : ∀ e : Fin 16, digitValue (Nat.digitChar e) = some (e : Nat) := by decide
  exact this ⟨d, h⟩

theorem digitsValue_append (base : Nat) (xs ys : List Char) (acc : Nat) :
    digitsValue base (xs ++ ys) acc = (digitsValue base xs acc).bind (digitsValue base ys) := by
  induction xs generalizing acc with
  | nil => rfl
  | cons c cs ih =>
    simp only [List.cons_append, digitsValue]
    cases digitValue c with
    | none => rfl
    | some d => dsimp only; split <;> simp [ih]

/-- Reading the digits of a number gives the number. -/
theorem digitsValue_toDigits {base : Nat} (h1 : 1 < base) (h2 : base ≤ 16) (n : Nat) : digitsValue base (Nat.toDigits base n) 0 = some n := by
  induction n using Nat.strong_induction_on with
  | _ n ih =>
    have hmod : n % base < base := Nat.mod_lt _ (by omega)
    rw [Nat.toDigits_eq_if h1]
    split
    · next hn => simp [digitsValue, digitValue_digitChar (lt_of_lt_of_le hn h2), hn]
    · next hn =>
      rw [digitsValue_append, ih _ (Nat.div_lt_self (by omega) h1)]
      simp [digitsValue, digitValue_digitChar (lt_of_lt_of_le hmod h2), hmod, Nat.div_add_mod']

/-- Every character of a number's digits is a digit of the base. -/
theorem mem_toDigits {base : Nat} (h1 : 1 < base) {n : Nat} {c : Char} (h : c ∈ Nat.toDigits base n) : ∃ d, d < base ∧ c = Nat.digitChar d := by
  induction n using Nat.strong_induction_on with
  | _ n ih =>
    rw [Nat.toDigits_eq_if h1] at h
    split at h
    · next hn => exact ⟨n, hn, List.mem_singleton.1 h⟩
    · next hn =>
      rcases List.mem_append.1 h with h | h
      · exact ih _ (Nat.div_lt_self (by omega) h1) h
      · exact ⟨n % base, Nat.mod_lt _ (by omega), List.mem_singleton.1 h⟩

theorem toDigits_ne_nil {base : Nat} (h1 : 1 < base) (n : Nat) : Nat.toDigits base n ≠ [] := by
  rw [Nat.toDigits_eq_if h1]; split <;> simp

/-- Without an x in it, a text is read as decimal. -/
theorem parseNumber_decimal {l : List Char} (hl : l ≠ []) (hx : 'x' ∉ l) : parseNumber l = digitsValue 10 l 0 := by
  unfold parseNumber
  split
  · exact absurd rfl hl
  · simp at hx
  · simp at hx
  · rfl

theorem parseNumber_hexadecimal {l : List Char} (hl : l ≠ []) : parseNumber ('0' :: 'x' :: l) = digitsValue 16 l 0 := by
  cases l with
  | nil => exact absurd rfl hl
  | cons c cs => rfl

/-- A number's text reads as the number. -/
theorem parseNumber_text (t : NumberText) : parseNumber t.text = some t.value := by
  cases t with
  | decimal n =>
    refine (parseNumber_decimal (toDigits_ne_nil (by decide) n) fun h => ?_).trans (digitsValue_toDigits (by decide) (by decide) n)
    obtain ⟨d, hd, h⟩ := mem_toDigits (by decide) h
    have : ∀ e : Fin 10, 'x' ≠ Nat.digitChar e := by decide
    exact this ⟨d, hd⟩ h
  | hexadecimal n =>
    exact (parseNumber_hexadecimal (toDigits_ne_nil (by decide) n)).trans (digitsValue_toDigits (by decide) (by decide) n)

theorem parseBelow_text {bound : Nat} (t : NumberText) (h : t.value < bound) : parseBelow bound t.text = some t.value := by
  rw [parseBelow, parseNumber_text]; exact if_pos h

/-- A number's text begins with a digit. -/
theorem number_head (t : NumberText) : ∃ d ds, d < 16 ∧ t.text = Nat.digitChar d :: ds := by
  cases t with
  | decimal n =>
    obtain ⟨c, cs, h⟩ := List.exists_cons_of_ne_nil (toDigits_ne_nil (base := 10) (by decide) n)
    obtain ⟨d, hd, rfl⟩ := mem_toDigits (by decide) (h ▸ List.mem_cons_self : c ∈ Nat.toDigits 10 n)
    exact ⟨d, cs, by omega, h⟩
  | hexadecimal n => exact ⟨0, _, by decide, rfl⟩

/-- A register number is read as the number: no register name begins with a digit. -/
theorem parseRegister_text (t : NumberText) (h : t.value < 2 ^ 32) : parseRegister t.text = some t.value := by
  have hn : ∀ e : Fin 16, registerNames.all (fun p => p.1.head? != some (Nat.digitChar e)) = true := by decide
  have hf : registerNames.find? (fun p => p.1 == t.text) = none := by
    obtain ⟨d, ds, hd, ht⟩ := number_head t
    rw [List.find?_eq_none]
    intro p hp hpt
    have := List.all_eq_true.1 (hn ⟨d, hd⟩) p hp
    rw [eq_of_beq hpt, ht] at this
    simp at this
  rw [parseRegister, hf]
  exact parseBelow_text t h

/-! ### Operand texts -/

/-- A character that neither separates operands nor is a blank or a quote. -/
def isPlain (c : Char) : Bool := !isBlank c && c != ',' && c != quoteChar

/-- Every character of a number's text is plain. -/
theorem number_plain (t : NumberText) : ∀ c ∈ t.text, isPlain c = true := by
  have hd : ∀ e : Fin 16, isPlain (Nat.digitChar e) = true := by decide
  intro c hc
  cases t with
  | decimal n =>
    obtain ⟨d, h, rfl⟩ := mem_toDigits (by decide) hc
    exact hd ⟨d, by omega⟩
  | hexadecimal n =>
    rcases List.mem_cons.1 hc with rfl | hc
    · decide
    · rcases List.mem_cons.1 hc with rfl | hc
      · decide
      · obtain ⟨d, h, rfl⟩ := mem_toDigits (by decide) hc
        exact hd ⟨d, h⟩

theorem number_ne_nil (t : NumberText) : t.text ≠ [] := by
  cases t with
  | decimal n => exact toDigits_ne_nil (by decide) n
  | hexadecimal n => exact List.cons_ne_nil _ _

/-- A text that stands as one operand: it begins and ends with no blank, and the reader goes over it whole. -/
structure IsOperand (o : List Char) : Prop where
  ne_nil : o ≠ []
  first : ∀ c, o.head? = some c → isBlank c = false
  last : ∀ c, o.getLast? = some c → isBlank c = false
  whole : ∀ rest cur, splitOperands (o ++ rest) cur false = splitOperands rest (o.reverse ++ cur) false

/-- Plain characters are gone over one by one. -/
theorem splitOperands_plain {o : List Char} (h : ∀ c ∈ o, isPlain c = true) (rest cur : List Char) :
    splitOperands (o ++ rest) cur false = splitOperands rest (o.reverse ++ cur) false := by
  induction o generalizing cur with
  | nil => rfl
  | cons c cs ih =>
    have hc := h c List.mem_cons_self
    simp only [isPlain, Bool.and_eq_true, bne_iff_ne] at hc
    rw [List.cons_append, splitOperands, if_neg hc.2, if_neg (fun h => hc.1.2 h.1), ih (fun d hd => h d (List.mem_cons_of_mem _ hd))]
    simp

/-- Between quotes, everything but a quote is gone over one by one. -/
theorem splitOperands_quoted {t : List Char} (h : ∀ c ∈ t, c ≠ quoteChar) (rest cur : List Char) :
    splitOperands (t ++ rest) cur true = splitOperands rest (t.reverse ++ cur) true := by
  induction t generalizing cur with
  | nil => rfl
  | cons c cs ih =>
    rw [List.cons_append, splitOperands, if_neg (h c List.mem_cons_self), if_neg (by simp), ih (fun d hd => h d (List.mem_cons_of_mem _ hd))]
    simp

theorem IsOperand.of_plain {o : List Char} (hn : o ≠ []) (h : ∀ c ∈ o, isPlain c = true) : IsOperand o := by
  have hb : ∀ c ∈ o, isBlank c = false := fun c hc => by
    have := h c hc; simp only [isPlain, Bool.and_eq_true, Bool.not_eq_true'] at this; exact this.1.1
  exact ⟨hn, fun c hc => hb c (List.mem_of_mem_head? hc), fun c hc => hb c (List.mem_of_getLast? hc), splitOperands_plain h⟩

/-- Plain characters, then a text between quotes. -/
theorem IsOperand.of_quoted {pre t : List Char} (hp : ∀ c ∈ pre, isPlain c = true) (ht : ∀ c ∈ t, c ≠ quoteChar) :
    IsOperand (pre ++ quoteChar :: t ++ [quoteChar]) := by
  refine ⟨by simp, fun c hc => ?_, fun c hc => ?_, fun rest cur => ?_⟩
  · cases pre with
    | nil => simp at hc; subst hc; decide
    | cons d ds =>
      simp at hc; subst hc
      have := hp d List.mem_cons_self
      simp only [isPlain, Bool.and_eq_true, Bool.not_eq_true'] at this; exact this.1.1
  · rw [List.getLast?_concat] at hc; cases hc; decide
  · rw [List.append_assoc, List.append_assoc, splitOperands_plain hp, List.cons_append, splitOperands, if_pos rfl, Bool.not_false,
      splitOperands_quoted ht, List.singleton_append, splitOperands, if_pos rfl, Bool.not_true]
    simp

theorem IsOperand.number (t : NumberText) : IsOperand t.text := .of_plain (number_ne_nil t) (number_plain t)

/-! ### Keys -/

theorem between_eq (pre : List Char) (post : Char) (t : List Char) : between pre post (pre ++ t ++ [post]) = some t := by
  rw [between, if_pos (by simp), List.append_assoc, List.drop_left, List.reverse_append]
  simp

theorem between_none {pre : List Char} {post : Char} {l : List Char} (h : l.take pre.length ≠ pre) : between pre post l = none := if_neg h

/-- The hexadecimal text of bytes reads as the bytes. -/
theorem parseHexBytes_text (bs : List Byte) : parseHexBytes (hexBytesText bs) = some bs := by
  have hnb : ∀ e : Fin 16, isBlank (Nat.digitChar e) = false := by decide
  have hv : ∀ b : Byte, digitsValue 16 [Nat.digitChar (b.toNat / 16), Nat.digitChar (b.toNat % 16)] 0 = some b.toNat := by
    intro b
    have h1 : b.toNat / 16 < 16 := by have := b.isLt; omega
    have h2 : b.toNat % 16 < 16 := by omega
    simp [digitsValue, digitValue_digitChar h1, digitValue_digitChar h2, h1, h2, Nat.div_add_mod']
  have hb : ∀ b : Byte, isBlank (Nat.digitChar (b.toNat / 16)) = false := fun b =>
    hnb ⟨b.toNat / 16, by have := b.isLt; omega⟩
  induction bs with
  | nil => rfl
  | cons b bs ih =>
    cases bs with
    | nil => simp [hexBytesText, parseHexBytes, hb, hv]
    | cons b' bs =>
      have hsp : parseHexBytes (' ' :: hexBytesText (b' :: bs)) = some (b' :: bs) := by
        have : ∃ c cs, hexBytesText (b' :: bs) = c :: cs := by cases bs <;> exact ⟨_, _, rfl⟩
        obtain ⟨c, cs, h⟩ := this
        rw [h] at ih ⊢
        rw [parseHexBytes, if_pos (by decide), ih]
      rw [hexBytesText, parseHexBytes, if_neg (by simp [hb]), hv, hsp]
      simp

/-- No quote stands in the hexadecimal text of bytes. -/
theorem hexBytesText_no_quote (bs : List Byte) : ∀ c ∈ hexBytesText bs, c ≠ quoteChar := by
  have hd : ∀ e : Fin 16, Nat.digitChar e ≠ quoteChar := by decide
  have hb : ∀ b : Byte, Nat.digitChar (b.toNat / 16) ≠ quoteChar ∧ Nat.digitChar (b.toNat % 16) ≠ quoteChar := fun b =>
    ⟨hd ⟨b.toNat / 16, by have := b.isLt; omega⟩, hd ⟨b.toNat % 16, by omega⟩⟩
  induction bs with
  | nil => simp [hexBytesText]
  | cons b bs ih =>
    cases bs with
    | nil => simp [hexBytesText, hb]
    | cons b' bs =>
      intro c hc
      simp only [hexBytesText, List.mem_cons] at hc
      rcases hc with rfl | rfl | rfl | hc
      · exact (hb b).1
      · exact (hb b).2
      · decide
      · exact ih c hc

/-! ### Blanks and lines -/

/-- A text that begins and ends with no blank is left as it is. -/
theorem trimBlanks_eq {l : List Char} (h1 : ∀ c, l.head? = some c → isBlank c = false) (h2 : ∀ c, l.getLast? = some c → isBlank c = false) :
    trimBlanks l = l := by
  have hd : ∀ m : List Char, (∀ c, m.head? = some c → isBlank c = false) → m.dropWhile isBlank = m := by
    intro m hm
    cases m with
    | nil => rfl
    | cons c cs => rw [List.dropWhile_cons, hm c rfl]; rfl
  rw [trimBlanks, hd l h1, hd l.reverse (by simpa using h2), List.reverse_reverse]

theorem trimBlanks_space (l : List Char) : trimBlanks (' ' :: l) = trimBlanks l := by
  rw [trimBlanks, List.dropWhile_cons, if_pos (by decide)]; rfl

theorem IsOperand.trim {o : List Char} (h : IsOperand o) : trimBlanks o = o := trimBlanks_eq h.first h.last

/-- A number between parentheses, as in `le32(n)`. -/
theorem NumberText.trim (t : NumberText) : trimBlanks t.text = t.text := (IsOperand.number t).trim

/-- A key's text stands as one operand. -/
theorem IsOperand.key {k : KeyText} (h : k.Legal) : IsOperand k.text := by
  have hf : ∀ (pre : List Char) (n : NumberText), (∀ c ∈ pre, isPlain c = true) → IsOperand (pre ++ n.text ++ [')']) := by
    intro pre n hp
    refine .of_plain (by simp) fun c hc => ?_
    simp only [List.mem_append, List.mem_singleton] at hc
    rcases hc with (hc | hc) | rfl
    · exact hp c hc
    · exact number_plain n c hc
    · decide
  cases k with
  | quoted t => exact IsOperand.of_quoted (pre := []) (by simp) fun c hc => (h c hc).2
  | hexBytes bs => exact IsOperand.of_quoted (pre := ['x']) (List.forall_mem_singleton.2 rfl) (hexBytesText_no_quote bs)
  | le32 n => exact hf _ n (List.all_eq_true.1 (by decide))
  | le64 n => exact hf _ n (List.all_eq_true.1 (by decide))
  | zeros n => exact hf _ n (List.all_eq_true.1 (by decide))

/-- A key's text reads as its bytes. -/
theorem parseKey_text {k : KeyText} (h : k.Legal) : parseKey k.text = some k.bytes := by
  have hn : ∀ (bound : Nat) (n : NumberText), n.value < bound → parseBelow bound (trimBlanks n.text) = some n.value := fun bound n hv => by
    rw [n.trim, parseBelow_text n hv]
  unfold parseKey
  cases k with
  | quoted t =>
    rw [show KeyText.text (.quoted t) = [quoteChar] ++ t ++ [quoteChar] from rfl, between_eq]
    refine if_pos (List.all_eq_true.2 fun c hc => ?_)
    simp [h c hc]
  | hexBytes bs =>
    rw [between_none (by simp [KeyText.text, quoteChar]),
      show KeyText.text (.hexBytes bs) = ['x', quoteChar] ++ hexBytesText bs ++ [quoteChar] from rfl, between_eq]
    exact parseHexBytes_text bs
  | le32 n =>
    rw [between_none (by simp [KeyText.text, quoteChar]), between_none (by simp [KeyText.text, quoteChar]), KeyText.text, between_eq]
    exact congrArg (Option.map _) (hn _ n h)
  | le64 n =>
    rw [between_none (by simp [KeyText.text, quoteChar]), between_none (by simp [KeyText.text, quoteChar]),
      between_none (by simp [KeyText.text]), KeyText.text, between_eq]
    exact congrArg (Option.map _) (hn _ n h)
  | zeros n =>
    rw [between_none (by simp [KeyText.text, quoteChar]), between_none (by simp [KeyText.text, quoteChar]),
      between_none (by simp [KeyText.text]), between_none (by simp [KeyText.text]), KeyText.text, between_eq]
    exact congrArg (Option.map _) (hn _ n h)

/-- The operands of a line are read one by one. -/
theorem splitOperands_operands {o : List Char} {os : List (List Char)} (ho : IsOperand o) (h : ∀ x ∈ os, IsOperand x) :
    splitOperands (o ++ os.flatMap fun x => ',' :: ' ' :: x) [] false = o :: os := by
  have key : ∀ (os : List (List Char)) (cur : List Char), (∀ x ∈ os, IsOperand x) →
      splitOperands (os.flatMap fun x => ',' :: ' ' :: x) cur false = trimBlanks cur.reverse :: os := by
    intro os
    induction os with
    | nil => intro cur _; rfl
    | cons x os ih =>
      intro cur h
      have hx := h x List.mem_cons_self
      rw [List.flatMap_cons, List.cons_append, List.cons_append, splitOperands, if_neg (by decide), if_pos ⟨rfl, rfl⟩, splitOperands,
        if_neg (by decide), if_neg (by decide), hx.whole, ih _ fun y hy => h y (List.mem_cons_of_mem _ hy)]
      rw [List.reverse_append, List.reverse_reverse]
      show _ :: trimBlanks (' ' :: x) :: os = _
      rw [trimBlanks_space, hx.trim]
  rw [ho.whole, key os _ h, List.append_nil, List.reverse_reverse, ho.trim]

/-- What a line with operands assembles to: the instruction of its mnemonic and operands, encoded. -/
theorem assembleLine_operands {m : String} {o : List Char} {os : List (List Char)} (hm : m.toList ≠ [])
    (hb : ∀ c ∈ m.toList, isBlank c = false) (ho : IsOperand o) (h : ∀ x ∈ os, IsOperand x) {i : Instr}
    (hi : parseInstr m.toList (o :: os) = some i) (hw : i.wellFormed = true) :
    assembleLine (lineText m (o :: os)) = some (encode i) := by
  have hlast : ∀ (os : List (List Char)), (∀ x ∈ os, IsOperand x) → ∀ c, (o ++ os.flatMap fun x => ',' :: ' ' :: x).getLast? = some c →
      isBlank c = false := by
    intro os
    induction os using List.reverseRecOn with
    | nil => intro _ c hc; exact ho.last c (by simpa using hc)
    | append_singleton os x _ =>
      intro h c hc
      have hx := h x (by simp)
      obtain ⟨d, ds, rfl⟩ := List.exists_cons_of_ne_nil hx.ne_nil
      refine hx.last c ?_
      simpa [List.getLast?_append] using hc
  have htw : ∀ (l r : List Char), (∀ c ∈ l, isBlank c = false) →
      (l ++ ' ' :: r).takeWhile (fun c => !isBlank c) = l ∧ (l ++ ' ' :: r).dropWhile (fun c => !isBlank c) = ' ' :: r := by
    intro l r hl
    induction l with
    | nil => exact ⟨by simp [isBlank], by simp [isBlank]⟩
    | cons c cs ih =>
      obtain ⟨h1, h2⟩ := ih fun d hd => hl d (List.mem_cons_of_mem _ hd)
      simp [hl c List.mem_cons_self, h1, h2]
  have hne : (o ++ os.flatMap fun x => ',' :: ' ' :: x) ≠ [] := by simp [ho.ne_nil]
  have hrest : trimBlanks (o ++ os.flatMap fun x => ',' :: ' ' :: x) = o ++ os.flatMap fun x => ',' :: ' ' :: x :=
    trimBlanks_eq (fun c hc => ho.first c (by rw [List.head?_append_of_ne_nil _ ho.ne_nil] at hc; exact hc)) (hlast os h)
  have hline : lineText m (o :: os) = m.toList ++ ' ' :: (o ++ os.flatMap fun x => ',' :: ' ' :: x) := by simp [lineText]
  have htrim : trimBlanks (lineText m (o :: os)) = lineText m (o :: os) := by
    rw [hline]
    refine trimBlanks_eq (fun c hc => ?_) fun c hc => ?_
    · rw [List.head?_append_of_ne_nil _ hm] at hc; exact hb c (List.mem_of_mem_head? hc)
    · refine hlast os h c ?_
      obtain ⟨d, ds, hds⟩ := List.exists_cons_of_ne_nil hne
      rw [hds] at hc ⊢
      simpa [List.getLast?_append] using hc
  unfold assembleLine
  dsimp only
  rw [htrim, hline, (htw _ _ hb).1, (htw _ _ hb).2, trimBlanks_space, hrest, if_neg hne, splitOperands_operands ho h, hi]
  exact if_pos hw

/-! ### Headers as numbers -/

/-- The header R79 writes, as a number. -/
theorem mkHeader_eq_ofNat (op : Opcode) (way plvl : BitVec 4) (arg : BitVec 32) :
    mkHeader op way plvl arg = BitVec.ofNat 64 (op.code.toNat + way.toNat * 2 ^ 8 + plvl.toNat * 2 ^ 12 + arg.toNat * 2 ^ 32) := by
  apply BitVec.eq_of_toNat_eq
  rw [mkHeader_toNat, BitVec.toNat_ofNat]
  have := op.code.isLt; have := way.isLt; have := plvl.isLt; have := arg.isLt
  omega

/-- A header whose only operand is ARG, as a number. -/
theorem mkHeader_arg (op : Opcode) {n : Nat} (h : n < 2 ^ 32) :
    mkHeader op 0#4 0#4 (BitVec.ofNat 32 n) = BitVec.ofNat 64 (op.code.toNat + n * 2 ^ 32) := by
  rw [mkHeader_eq_ofNat, BitVec.toNat_ofNat (x := n), Nat.mod_eq_of_lt h]; simp

end Sys2Proof.Machine
end

