-- ==== Sys2Proof/Laws/Digest.lean ====
section
/-! SUPPORT. The digest's stages as equations, and the numbers behind the selector lanes and codes, so that no proof unfolds them. -/

namespace Sys2Proof.Machine

/-- With no byte left, M is added to c and, after the length term, to d (R107). -/
theorem foldTail_nil (L : Nat) (T : List Byte) (l : Lanes) (h : T.length = 0) :
    foldTail L T l = ⟨l.a, l.b, l.c + magic, l.d + (BitVec.ofNat 64 L <<< 56) + magic⟩ := by
  unfold foldTail; rw [if_pos h]

/-- With bytes left, the first eight go to c and the others, after the length term, to d (R107). -/
theorem foldTail_pos (L : Nat) (T : List Byte) (l : Lanes) (h : T.length ≠ 0) :
    foldTail L T l =
      ⟨l.a, l.b, l.c + leWord (T.take 8), l.d + (BitVec.ofNat 64 L <<< 56) + leWord (T.drop 8)⟩ := by
  unfold foldTail; rw [if_neg h]

/-- The whole of `absorb` as one equation (R109). -/
theorem absorb_eq (K : List Byte) :
    absorb K =
      if 16 ≤ K.length % 32 then
        foldTail K.length (K.drop (32 * (K.length / 32) + 16))
          (absorbHalf K (32 * (K.length / 32)) (absorbBlocks K (K.length / 32) 0 Lanes.start))
      else foldTail K.length (K.drop (32 * (K.length / 32))) (absorbBlocks K (K.length / 32) 0 Lanes.start) := rfl

theorem le64_drop (K : List Byte) (q p : Nat) : le64 (K.drop q) p = le64 K (q + p) := by
  unfold le64; rw [List.drop_drop]

/-- Absorbing from a key's suffix is absorbing from the key further on. -/
theorem absorbHalf_drop (K : List Byte) (q p : Nat) (l : Lanes) : absorbHalf (K.drop q) p l = absorbHalf K (q + p) l := by
  unfold absorbHalf; rw [le64_drop, le64_drop, Nat.add_assoc]

theorem absorbBlock_drop (K : List Byte) (q p : Nat) (l : Lanes) :
    absorbBlock (K.drop q) p l = absorbBlock K (q + p) l := by
  unfold absorbBlock
  rw [absorbHalf_drop, le64_drop, le64_drop, Nat.add_assoc, Nat.add_assoc]

theorem selectorLane_toNat (V : BitVec 128) (i : Nat) : (selectorLane V i).toNat = V.toNat / 2 ^ (32 * i) % 2 ^ 32 := by
  unfold selectorLane; rw [BitVec.extractLsb'_toNat, Nat.shiftRight_eq_div_pow]

theorem probeCode_toNat (V : BitVec 128) (j : Nat) : (probeCode V j).toNat = V.toNat / 2 ^ (16 * j) % 2 ^ 16 := by
  unfold probeCode; rw [BitVec.extractLsb'_toNat, Nat.shiftRight_eq_div_pow]

/-- Each position is packed at its own 16 bits, for any four positions (R139). -/
theorem packPositions_toNat (b0 b1 b2 b3 : BitVec 16) :
    (packPositions b0 b1 b2 b3).toNat = b0.toNat + b1.toNat * 2 ^ 16 + b2.toNat * 2 ^ 32 + b3.toNat * 2 ^ 48 := by
  have h : packPositions b0 b1 b2 b3 = (b3 ++ b2 ++ b1 ++ b0 : BitVec (16 + 16 + 16 + 16)) := by
    unfold packPositions
    apply BitVec.eq_of_getLsbD_eq
    intro i hi
    simp only [BitVec.getLsbD_or, BitVec.getLsbD_setWidth, BitVec.getLsbD_shiftLeft, BitVec.getLsbD_append]
    by_cases h1 : i < 16
    · simp [h1, hi, show i < 32 by omega, show i < 48 by omega]
    · by_cases h2 : i < 32
      · have : b0.getLsbD i = false := BitVec.getLsbD_of_ge _ _ (by omega)
        simp [h1, h2, hi, this, show i < 48 by omega, show i - 16 < 16 by omega, show i - 16 < 64 by omega]
      · by_cases h3 : i < 48
        · have e0 : b0.getLsbD i = false := BitVec.getLsbD_of_ge _ _ (by omega)
          have e1 : b1.getLsbD (i - 16) = false := BitVec.getLsbD_of_ge _ _ (by omega)
          simp [h1, h2, h3, hi, e0, e1, show ¬ i - 16 < 16 by omega, show i - 16 - 16 = i - 32 by omega,
            show i - 32 < 16 by omega, show i - 32 < 64 by omega]
        · have e0 : b0.getLsbD i = false := BitVec.getLsbD_of_ge _ _ (by omega)
          have e1 : b1.getLsbD (i - 16) = false := BitVec.getLsbD_of_ge _ _ (by omega)
          have e2 : b2.getLsbD (i - 32) = false := BitVec.getLsbD_of_ge _ _ (by omega)
          simp [h1, h2, h3, hi, e0, e1, e2, show ¬ i - 16 < 16 by omega, show ¬ i - 16 - 16 < 16 by omega,
            show i - 16 - 16 - 16 = i - 48 by omega, show i - 48 < 64 by omega]
  have append : ∀ {m n : Nat} (x : BitVec m) (y : BitVec n), (x ++ y).toNat = x.toNat * 2 ^ n + y.toNat := by
    intro m n x y
    rw [BitVec.toNat_append, ← Nat.shiftLeft_add_eq_or_of_lt y.isLt, Nat.shiftLeft_eq]
  rw [h, append, append, append]
  omega

end Sys2Proof.Machine
end

