-- ==== Sys2Proof/Laws/Memory.lean ====
section
/-! SUPPORT. The laws of memory: what a read gives after a write, and that every operation keeps the canonical form
(`Memory.wf`), which makes equal contents equal lists. -/

namespace Sys2Proof.Machine

theorem Memory.wf_nil : Memory.wf [] := ⟨List.Pairwise.nil, by simp⟩

theorem Memory.wf_zeros : Memory.wf Memory.zeros := Memory.wf_nil

theorem Memory.read_zeros (x : Nat) : Memory.read Memory.zeros x = unlistedByte := rfl

/-- The tail of a canonical memory is canonical, and lies above its head. -/
theorem Memory.wf_cons {a : Nat} {b : Byte} {m : Memory} (h : Memory.wf ((a, b) :: m)) :
    Memory.wf m ∧ b ≠ unlistedByte ∧ ∀ c ∈ m, a < c.1 := by
  obtain ⟨hp, hz⟩ := h
  rw [List.pairwise_cons] at hp
  exact ⟨⟨hp.2, fun c hc => hz c (List.mem_cons_of_mem _ hc)⟩, hz (a, b) List.mem_cons_self, hp.1⟩

theorem Memory.wf_cons_iff {a : Nat} {b : Byte} {m : Memory} :
    Memory.wf ((a, b) :: m) ↔ Memory.wf m ∧ b ≠ unlistedByte ∧ ∀ c ∈ m, a < c.1 := by
  refine ⟨Memory.wf_cons, fun ⟨⟨hp, hz⟩, hb, ha⟩ => ⟨List.pairwise_cons.2 ⟨ha, hp⟩, ?_⟩⟩
  intro c hc
  rcases List.mem_cons.1 hc with rfl | hc
  · exact hb
  · exact hz c hc

/-- An address without a cell reads as `unlistedByte`. -/
theorem Memory.read_of_not_listed {m : Memory} {x : Nat} (h : ∀ c ∈ m, c.1 ≠ x) : m.read x = unlistedByte := by
  induction m with
  | nil => rfl
  | cons c m ih =>
    obtain ⟨a, b⟩ := c
    have hne : x ≠ a := fun e => h (a, b) List.mem_cons_self e.symm
    rw [Memory.read, if_neg hne]
    exact ih fun c hc => h c (List.mem_cons_of_mem _ hc)

/-- Below every cell, memory reads as `unlistedByte`. -/
theorem Memory.read_below {m : Memory} {x : Nat} (h : ∀ c ∈ m, x < c.1) : m.read x = unlistedByte :=
  Memory.read_of_not_listed fun c hc e => by have := h c hc; omega

/-- A write lists no address but its own and those listed before. -/
theorem Memory.mem_write {m : Memory} {x : Nat} {v : Byte} {c : Host.Cell} (h : c ∈ m.write x v) : c ∈ m ∨ c = (x, v) := by
  induction m with
  | nil =>
    rw [Memory.write] at h
    split at h
    · exact absurd h (by simp)
    · exact .inr (by simpa using h)
  | cons e m ih =>
    obtain ⟨a, b⟩ := e
    rw [Memory.write] at h
    split at h
    · split at h
      · exact .inl h
      · rcases List.mem_cons.1 h with h | h
        · exact .inr h
        · exact .inl h
    · split at h
      · split at h
        · exact .inl (List.mem_cons_of_mem _ h)
        · rcases List.mem_cons.1 h with h | h
          · exact .inr h
          · exact .inl (List.mem_cons_of_mem _ h)
      · rcases List.mem_cons.1 h with h | h
        · exact .inl (h ▸ List.mem_cons_self)
        · rcases ih h with h | h
          · exact .inl (List.mem_cons_of_mem _ h)
          · exact .inr h

/-- A write keeps the canonical form. -/
theorem Memory.write_wf {m : Memory} (x : Nat) (v : Byte) (h : m.wf) : (m.write x v).wf := by
  induction m with
  | nil =>
    rw [Memory.write]
    split
    · exact Memory.wf_nil
    · exact Memory.wf_cons_iff.2 ⟨Memory.wf_nil, by assumption, by simp⟩
  | cons e m ih =>
    obtain ⟨a, b⟩ := e
    obtain ⟨hm, hb, ha⟩ := Memory.wf_cons h
    rw [Memory.write]
    split
    · split
      · exact h
      · refine Memory.wf_cons_iff.2 ⟨h, by assumption, fun c hc => ?_⟩
        rcases List.mem_cons.1 hc with rfl | hc
        · assumption
        · have := ha c hc; omega
    · split
      · split
        · exact hm
        · subst_vars; exact Memory.wf_cons_iff.2 ⟨hm, by assumption, ha⟩
      · refine Memory.wf_cons_iff.2 ⟨ih hm, hb, fun c hc => ?_⟩
        rcases Memory.mem_write hc with hc | rfl
        · exact ha c hc
        · show a < x; omega

/-- Reading after a write to the same address gives the value written. -/
theorem Memory.read_write_same {m : Memory} (x : Nat) (v : Byte) (h : m.wf) : (m.write x v).read x = v := by
  induction m with
  | nil =>
    rw [Memory.write]
    split
    · subst_vars; rfl
    · simp [Memory.read]
  | cons e m ih =>
    obtain ⟨a, b⟩ := e
    obtain ⟨hm, hb, ha⟩ := Memory.wf_cons h
    rw [Memory.write]
    split
    · split
      · subst_vars
        exact Memory.read_below fun c hc => by
          rcases List.mem_cons.1 hc with rfl | hc
          · assumption
          · have := ha c hc; omega
      · simp [Memory.read]
    · split
      · subst_vars
        split
        · subst_vars; exact Memory.read_below ha
        · simp [Memory.read]
      · rw [Memory.read, if_neg (by assumption), ih hm]

/-- A write leaves every other address alone. -/
theorem Memory.read_write_other {m : Memory} {x y : Nat} (v : Byte) (hne : y ≠ x) :
    (m.write x v).read y = m.read y := by
  induction m with
  | nil =>
    rw [Memory.write]
    split
    · rfl
    · simp [Memory.read, hne]
  | cons e m ih =>
    obtain ⟨a, b⟩ := e
    rw [Memory.write]
    split
    · split
      · rfl
      · rw [Memory.read, if_neg hne]
    · split
      · subst_vars
        split
        · rw [Memory.read, if_neg hne]
        · rw [Memory.read, if_neg hne, Memory.read, if_neg hne]
      · rw [Memory.read, Memory.read, ih]

/-- Two canonical memories that read alike everywhere are the same list. -/
theorem Memory.ext_read {m n : Memory} (hm : m.wf) (hn : n.wf) (h : ∀ x, m.read x = n.read x) : m = n := by
  induction m generalizing n with
  | nil =>
    cases n with
    | nil => rfl
    | cons e n =>
      obtain ⟨a, b⟩ := e
      have := h a
      rw [Memory.read, Memory.read, if_pos rfl] at this
      exact absurd this.symm (Memory.wf_cons hn).2.1
  | cons e m ih =>
    obtain ⟨a, b⟩ := e
    obtain ⟨hm', hb, ha⟩ := Memory.wf_cons hm
    cases n with
    | nil =>
      have := h a
      rw [Memory.read, Memory.read, if_pos rfl] at this
      exact absurd this hb
    | cons e' n =>
      obtain ⟨a', b'⟩ := e'
      obtain ⟨hn', hb', ha'⟩ := Memory.wf_cons hn
      have hlow : ∀ {p q : Memory} {u w : Nat} {c d : Byte}, (∀ e ∈ q, w < e.1) → c ≠ unlistedByte →
          (∀ x, Memory.read ((u, c) :: p) x = Memory.read ((w, d) :: q) x) → ¬ u < w := by
        intro p q u w c d hq hc hr hlt
        have h1 := hr u
        rw [Memory.read, if_pos rfl, Memory.read, if_neg (by omega),
          Memory.read_below fun e he => by have := hq e he; omega] at h1
        exact hc h1
      have h1 : ¬ a < a' := hlow ha' hb h
      have h2 : ¬ a' < a := hlow ha hb' fun x => (h x).symm
      have haa : a = a' := by omega
      subst haa
      have hbb : b = b' := by
        have := h a
        rwa [Memory.read, if_pos rfl, Memory.read, if_pos rfl] at this
      subst hbb
      congr 1
      refine ih hm' hn' fun x => ?_
      by_cases hx : x = a
      · subst hx; rw [Memory.read_below ha, Memory.read_below ha']
      · have := h x
        rwa [Memory.read, if_neg hx, Memory.read, if_neg hx] at this

/-- Writing what is already there changes nothing. -/
theorem Memory.write_read_self {m : Memory} (x : Nat) (h : m.wf) : m.write x (m.read x) = m := by
  refine Memory.ext_read (Memory.write_wf _ _ h) h fun y => ?_
  by_cases hy : y = x
  · subst hy; exact Memory.read_write_same _ _ h
  · exact Memory.read_write_other _ hy

/-- An image lists only addresses it covers. -/
theorem Memory.mem_ofBytes {bs : List Byte} {a : Nat} {c : Host.Cell} (h : c ∈ Memory.ofBytes a bs) :
    a ≤ c.1 ∧ c.1 < a + bs.length := by
  induction bs generalizing a with
  | nil => exact absurd h (by simp [Memory.ofBytes])
  | cons b bs ih =>
    rw [Memory.ofBytes] at h
    rw [List.length_cons]
    split at h
    · have := ih h; omega
    · rcases List.mem_cons.1 h with rfl | h
      · dsimp only; omega
      · have := ih h; omega

/-- An image is laid out in canonical form. -/
theorem Memory.ofBytes_wf (a : Nat) (bs : List Byte) : (Memory.ofBytes a bs).wf := by
  induction bs generalizing a with
  | nil => exact Memory.wf_nil
  | cons b bs ih =>
    rw [Memory.ofBytes]
    split
    · exact ih _
    · exact Memory.wf_cons_iff.2 ⟨ih _, by assumption, fun c hc => by have := Memory.mem_ofBytes hc; omega⟩

/-- An image's byte `i` stands at address `a + i`. -/
theorem Memory.read_ofBytes (a : Nat) (bs : List Byte) (i : Nat) :
    (Memory.ofBytes a bs).read (a + i) = bs.getD i unlistedByte := by
  induction bs generalizing a i with
  | nil => rfl
  | cons b bs ih =>
    rw [Memory.ofBytes]
    split
    · cases i with
      | zero =>
        rw [Memory.read_below fun c hc => by have := Memory.mem_ofBytes hc; omega]
        subst_vars; rfl
      | succ i => rw [show a + (i + 1) = a + 1 + i by omega, ih]; rfl
    · cases i with
      | zero => simp [Memory.read]
      | succ i => rw [Memory.read, if_neg (by omega), show a + (i + 1) = a + 1 + i by omega, ih]; rfl

theorem Memory.length_bytes (m : Memory) (a n : Nat) : (m.bytes a n).length = n := by
  induction n generalizing a with
  | zero => rfl
  | succ n ih => rw [Memory.bytes, List.length_cons, ih]

/-- Byte `i` of the bytes from `a` up is the byte at `a + i`. -/
theorem Memory.getD_bytes (m : Memory) (a n i : Nat) (d : Byte) (h : i < n) : (m.bytes a n).getD i d = m.read (a + i) := by
  induction n generalizing a i with
  | zero => omega
  | succ n ih =>
    cases i with
    | zero => rfl
    | succ i =>
      rw [Memory.bytes, List.getD_cons_succ, ih _ _ (by omega)]
      congr 1; omega

end Sys2Proof.Machine
end

