-- ==== Sys2Proof/Laws/State.lean ====
section
/-! SUPPORT. One lemma per field per update of State, each true by rfl, so that no later proof unfolds a record update. -/

namespace Sys2Proof.Machine

variable (s : State)

/-! ### setBuf -/

@[simp] theorem State.setBuf_cfgValid (m : Memory) : (s.setBuf m).cfgValid = s.cfgValid := rfl
@[simp] theorem State.setBuf_way (m : Memory) : (s.setBuf m).way = s.way := rfl
@[simp] theorem State.setBuf_pageLevel (m : Memory) : (s.setBuf m).pageLevel = s.pageLevel := rfl
@[simp] theorem State.setBuf_pageCount (m : Memory) : (s.setBuf m).pageCount = s.pageCount := rfl
@[simp] theorem State.setBuf_uniqueCount (m : Memory) : (s.setBuf m).uniqueCount = s.uniqueCount := rfl
@[simp] theorem State.setBuf_buf (m : Memory) : (s.setBuf m).buf = m := rfl
@[simp] theorem State.setBuf_bufBytesMax (m : Memory) : (s.setBuf m).bufBytesMax = s.bufBytesMax := rfl
@[simp] theorem State.setBuf_port (m : Memory) : (s.setBuf m).port = s.port := rfl
@[simp] theorem State.setBuf_inputs (m : Memory) : (s.setBuf m).inputs = s.inputs := rfl
@[simp] theorem State.setBuf_responses (m : Memory) : (s.setBuf m).responses = s.responses := rfl

/-! ### countNew -/

@[simp] theorem State.countNew_cfgValid : (s.countNew).cfgValid = s.cfgValid := rfl
@[simp] theorem State.countNew_way : (s.countNew).way = s.way := rfl
@[simp] theorem State.countNew_pageLevel : (s.countNew).pageLevel = s.pageLevel := rfl
@[simp] theorem State.countNew_pageCount : (s.countNew).pageCount = s.pageCount := rfl
@[simp] theorem State.countNew_uniqueCount : (s.countNew).uniqueCount = s.uniqueCount + 1#64 := rfl
@[simp] theorem State.countNew_buf : (s.countNew).buf = s.buf := rfl
@[simp] theorem State.countNew_bufBytesMax : (s.countNew).bufBytesMax = s.bufBytesMax := rfl
@[simp] theorem State.countNew_port : (s.countNew).port = s.port := rfl
@[simp] theorem State.countNew_inputs : (s.countNew).inputs = s.inputs := rfl
@[simp] theorem State.countNew_responses : (s.countNew).responses = s.responses := rfl

/-! ### install -/

@[simp] theorem State.install_cfgValid (w l : BitVec 4) (n : BitVec 32) (u : Word) (m : Memory) : (s.install w l n u m).cfgValid = 1#1 := rfl
@[simp] theorem State.install_way (w l : BitVec 4) (n : BitVec 32) (u : Word) (m : Memory) : (s.install w l n u m).way = w := rfl
@[simp] theorem State.install_pageLevel (w l : BitVec 4) (n : BitVec 32) (u : Word) (m : Memory) : (s.install w l n u m).pageLevel = l := rfl
@[simp] theorem State.install_pageCount (w l : BitVec 4) (n : BitVec 32) (u : Word) (m : Memory) : (s.install w l n u m).pageCount = n := rfl
@[simp] theorem State.install_uniqueCount (w l : BitVec 4) (n : BitVec 32) (u : Word) (m : Memory) : (s.install w l n u m).uniqueCount = u := rfl
@[simp] theorem State.install_buf (w l : BitVec 4) (n : BitVec 32) (u : Word) (m : Memory) : (s.install w l n u m).buf = m := rfl
@[simp] theorem State.install_bufBytesMax (w l : BitVec 4) (n : BitVec 32) (u : Word) (m : Memory) : (s.install w l n u m).bufBytesMax = s.bufBytesMax := rfl
@[simp] theorem State.install_port (w l : BitVec 4) (n : BitVec 32) (u : Word) (m : Memory) : (s.install w l n u m).port = s.port := rfl
@[simp] theorem State.install_inputs (w l : BitVec 4) (n : BitVec 32) (u : Word) (m : Memory) : (s.install w l n u m).inputs = s.inputs := rfl
@[simp] theorem State.install_responses (w l : BitVec 4) (n : BitVec 32) (u : Word) (m : Memory) : (s.install w l n u m).responses = s.responses := rfl

/-! ### accept -/

@[simp] theorem State.accept_cfgValid (c : Command) : (s.accept c).cfgValid = s.cfgValid := rfl
@[simp] theorem State.accept_way (c : Command) : (s.accept c).way = s.way := rfl
@[simp] theorem State.accept_pageLevel (c : Command) : (s.accept c).pageLevel = s.pageLevel := rfl
@[simp] theorem State.accept_pageCount (c : Command) : (s.accept c).pageCount = s.pageCount := rfl
@[simp] theorem State.accept_uniqueCount (c : Command) : (s.accept c).uniqueCount = s.uniqueCount := rfl
@[simp] theorem State.accept_buf (c : Command) : (s.accept c).buf = s.buf := rfl
@[simp] theorem State.accept_bufBytesMax (c : Command) : (s.accept c).bufBytesMax = s.bufBytesMax := rfl
@[simp] theorem State.accept_port (c : Command) : (s.accept c).port = .busy c := rfl
@[simp] theorem State.accept_inputs (c : Command) : (s.accept c).inputs = s.inputs := rfl
@[simp] theorem State.accept_responses (c : Command) : (s.accept c).responses = s.responses := rfl

/-! ### setInputs -/

@[simp] theorem State.setInputs_cfgValid (l : List HostInput) : (s.setInputs l).cfgValid = s.cfgValid := rfl
@[simp] theorem State.setInputs_way (l : List HostInput) : (s.setInputs l).way = s.way := rfl
@[simp] theorem State.setInputs_pageLevel (l : List HostInput) : (s.setInputs l).pageLevel = s.pageLevel := rfl
@[simp] theorem State.setInputs_pageCount (l : List HostInput) : (s.setInputs l).pageCount = s.pageCount := rfl
@[simp] theorem State.setInputs_uniqueCount (l : List HostInput) : (s.setInputs l).uniqueCount = s.uniqueCount := rfl
@[simp] theorem State.setInputs_buf (l : List HostInput) : (s.setInputs l).buf = s.buf := rfl
@[simp] theorem State.setInputs_bufBytesMax (l : List HostInput) : (s.setInputs l).bufBytesMax = s.bufBytesMax := rfl
@[simp] theorem State.setInputs_port (l : List HostInput) : (s.setInputs l).port = s.port := rfl
@[simp] theorem State.setInputs_inputs (l : List HostInput) : (s.setInputs l).inputs = l := rfl
@[simp] theorem State.setInputs_responses (l : List HostInput) : (s.setInputs l).responses = s.responses := rfl

/-! ### respond -/

@[simp] theorem State.respond_cfgValid (r : Response) : (s.respond r).cfgValid = s.cfgValid := rfl
@[simp] theorem State.respond_way (r : Response) : (s.respond r).way = s.way := rfl
@[simp] theorem State.respond_pageLevel (r : Response) : (s.respond r).pageLevel = s.pageLevel := rfl
@[simp] theorem State.respond_pageCount (r : Response) : (s.respond r).pageCount = s.pageCount := rfl
@[simp] theorem State.respond_uniqueCount (r : Response) : (s.respond r).uniqueCount = s.uniqueCount := rfl
@[simp] theorem State.respond_buf (r : Response) : (s.respond r).buf = s.buf := rfl
@[simp] theorem State.respond_bufBytesMax (r : Response) : (s.respond r).bufBytesMax = s.bufBytesMax := rfl
@[simp] theorem State.respond_port (r : Response) : (s.respond r).port = .idle := rfl
@[simp] theorem State.respond_inputs (r : Response) : (s.respond r).inputs = s.inputs := rfl
@[simp] theorem State.respond_responses (r : Response) : (s.respond r).responses = r :: s.responses := rfl

/-! ### takeReset -/

@[simp] theorem State.takeReset_cfgValid : (s.takeReset).cfgValid = 0#1 := rfl
@[simp] theorem State.takeReset_way : (s.takeReset).way = 0#4 := rfl
@[simp] theorem State.takeReset_pageLevel : (s.takeReset).pageLevel = 0#4 := rfl
@[simp] theorem State.takeReset_pageCount : (s.takeReset).pageCount = 0#32 := rfl
@[simp] theorem State.takeReset_uniqueCount : (s.takeReset).uniqueCount = 0#64 := rfl
@[simp] theorem State.takeReset_buf : (s.takeReset).buf = [] := rfl
@[simp] theorem State.takeReset_bufBytesMax : (s.takeReset).bufBytesMax = s.bufBytesMax := rfl
@[simp] theorem State.takeReset_port : (s.takeReset).port = .idle := rfl
@[simp] theorem State.takeReset_inputs : (s.takeReset).inputs = s.inputs := rfl
@[simp] theorem State.takeReset_responses : (s.takeReset).responses = s.responses := rfl

/-! ### Derived values -/

@[simp] theorem State.setBuf_bufBytes (m : Memory) : (s.setBuf m).bufBytes = s.bufBytes := rfl
@[simp] theorem State.countNew_bufBytes : s.countNew.bufBytes = s.bufBytes := rfl
@[simp] theorem State.accept_bufBytes (c : Command) : (s.accept c).bufBytes = s.bufBytes := rfl
@[simp] theorem State.setInputs_bufBytes (l : List HostInput) : (s.setInputs l).bufBytes = s.bufBytes := rfl
@[simp] theorem State.respond_bufBytes (r : Response) : (s.respond r).bufBytes = s.bufBytes := rfl
@[simp] theorem State.takeReset_bufBytes : s.takeReset.bufBytes = 0 := rfl

/-- The new filter has `PAGE_COUNT << PAGE_LEVEL` bytes (R27). -/
theorem State.install_bufBytes (w l : BitVec 4) (n : BitVec 32) (u : Word) (m : Memory) :
    (s.install w l n u m).bufBytes = n.toNat <<< l.toNat := rfl

theorem State.bufBytes_configured {s : State} (h : s.cfgValid = 1#1) :
    s.bufBytes = s.pageCount.toNat <<< s.pageLevel.toNat := by
  unfold State.bufBytes; rw [if_neg (by rw [h]; decide)]

theorem State.bufBytes_unconfigured {s : State} (h : s.cfgValid = 0#1) : s.bufBytes = 0 := by
  unfold State.bufBytes; rw [if_pos h]

/-- `CFG_VALID` is one bit: it is 0 or 1. -/
theorem State.cfgValid_cases : s.cfgValid = 0#1 ∨ s.cfgValid = 1#1 := by
  generalize s.cfgValid = c
  revert c; decide

theorem State.respond_engine (r : Response) : (s.respond r).engine = s.engine := rfl
theorem State.accept_engine (c : Command) : (s.accept c).engine = s.engine := rfl
theorem State.setInputs_engine (l : List HostInput) : (s.setInputs l).engine = s.engine := rfl

end Sys2Proof.Machine
end

