-- ==== Sys2Proof/Laws/Ops.lean ====
section
/-! SUPPORT. One lemma for each shared operation that says once everything it can do; proofs cite these and do not unfold the
operations. -/

namespace Sys2Proof.Machine

/-! ### Ending a command -/

/-- A response does to the port exactly what `Answered` says. -/
theorem respond_answered (s : State) (r : Response) : Answered s (s.respond r) r := ⟨rfl, rfl, rfl, rfl⟩

/-- `raise` answers a next state with the same engine. -/
theorem raiseStatus_eq (e : Status) (s : State) : raiseStatus e s = .next (s.respond (errorResponse e)) := rfl

theorem whenConfigured_of_configured {s : State} {k : Result} (h : s.cfgValid = 1#1) : whenConfigured s k = k := by
  unfold whenConfigured; rw [if_neg (by rw [h]; decide)]

theorem whenConfigured_of_unconfigured {s : State} {k : Result} (h : s.cfgValid = 0#1) :
    whenConfigured s k = .next (s.respond (errorResponse .notConfigured)) := by
  unfold whenConfigured; rw [if_pos h]; rfl

/-! ### The buffer -/

theorem memReadByte_of_lt {s : State} {a : Nat} (h : a < s.bufBytes) : s.memReadByte a = some (s.buf.read a) := if_pos h

theorem memReadByte_of_not_lt {s : State} {a : Nat} (h : ¬ a < s.bufBytes) : s.memReadByte a = none := if_neg h

theorem memReadByte_eq_some {s : State} {a : Nat} {v : Byte} (h : s.memReadByte a = some v) :
    a < s.bufBytes ∧ v = s.buf.read a := by
  unfold State.memReadByte at h
  split at h
  · exact ⟨by assumption, (Option.some.inj h).symm⟩
  · cases h

theorem memWriteByte_of_lt {s : State} {a : Nat} {v : Byte} (h : a < s.bufBytes) :
    s.memWriteByte a v = some (s.setBuf (s.buf.write a v)) := if_pos h

theorem memReadWord_of_le {s : State} {a : Nat} (h : a + 8 ≤ s.bufBytes) :
    s.memReadWord a = some (leWord (s.buf.bytes a 8)) := if_pos h

/-! ### The checks of CONFIG and LOAD -/

/-- `shapeOk` is the bounds of R170 and R172 on way and pageLevel. -/
theorem shapeOk_iff (way lvl : BitVec 4) :
    shapeOk way lvl = true ↔
      4 ≤ way.toNat ∧ way.toNat ≤ 8 ∧ 8 - 8 / way.toNat ≤ lvl.toNat ∧ lvl.toNat ≤ 13 := by
  unfold shapeOk lvlMin lvlMax
  rw [Bool.and_eq_true, decide_eq_true_eq, decide_eq_true_eq]
  tauto

/-- What CONFIG's checks answer. -/
theorem configError_cases (s : State) (way lvl : BitVec 4) (cnt : BitVec 32) :
    (configError s way lvl cnt = some .invalidParameter ∧
      (shapeOk way lvl = false ∨ cnt.toNat < 1 ∨ 2 ^ 31 - 1 < cnt.toNat)) ∨
    (configError s way lvl cnt = some .capacityOverflow ∧ shapeOk way lvl = true ∧ 1 ≤ cnt.toNat ∧ cnt.toNat ≤ 2 ^ 31 - 1 ∧
      s.bufBytesMax.toNat < cnt.toNat * 2 ^ lvl.toNat) ∨
    (configError s way lvl cnt = none ∧ shapeOk way lvl = true ∧ 1 ≤ cnt.toNat ∧ cnt.toNat ≤ 2 ^ 31 - 1 ∧
      cnt.toNat * 2 ^ lvl.toNat ≤ s.bufBytesMax.toNat) := by
  unfold configError pageCountMax
  rw [Nat.shiftLeft_eq]
  by_cases h1 : shapeOk way lvl = false
  · rw [if_pos h1]; exact .inl ⟨rfl, .inl h1⟩
  · rw [if_neg h1]
    have h1' : shapeOk way lvl = true := by simpa using h1
    by_cases h2 : cnt.toNat < 1 ∨ 2 ^ 31 - 1 < cnt.toNat
    · rw [if_pos h2]; exact .inl ⟨rfl, .inr h2⟩
    · rw [if_neg h2]
      by_cases h3 : s.bufBytesMax.toNat < cnt.toNat * 2 ^ lvl.toNat
      · rw [if_pos h3]; exact .inr (.inl ⟨rfl, h1', by omega, by omega, h3⟩)
      · rw [if_neg h3]; exact .inr (.inr ⟨rfl, h1', by omega, by omega, by omega⟩)

/-- What LOAD's checks answer for an image of `n` bytes. -/
theorem loadError_cases (s : State) (way lvl : BitVec 4) (n : Nat) :
    (loadError s way lvl n = some .invalidParameter ∧ (shapeOk way lvl = false ∨ n = 0 ∨ ¬ 2 ^ lvl.toNat ∣ n)) ∨
    (loadError s way lvl n = some .capacityOverflow ∧ shapeOk way lvl = true ∧ n ≠ 0 ∧ 2 ^ lvl.toNat ∣ n ∧
      s.bufBytesMax.toNat < n) ∨
    (loadError s way lvl n = none ∧ shapeOk way lvl = true ∧ n ≠ 0 ∧ 2 ^ lvl.toNat ∣ n ∧ n ≤ s.bufBytesMax.toNat) := by
  unfold loadError
  by_cases h1 : shapeOk way lvl = false
  · rw [if_pos h1]; exact .inl ⟨rfl, .inl h1⟩
  · rw [if_neg h1]
    have h1' : shapeOk way lvl = true := by simpa using h1
    by_cases h2 : n = 0
    · rw [if_pos h2]; exact .inl ⟨rfl, .inr (.inl h2)⟩
    · rw [if_neg h2]
      by_cases h3 : 2 ^ lvl.toNat ∣ n
      · have h3' : ¬ n % 2 ^ lvl.toNat ≠ 0 := not_not.2 (Nat.mod_eq_zero_of_dvd h3)
        rw [if_neg h3']
        by_cases h4 : s.bufBytesMax.toNat < n
        · rw [if_pos h4]; exact .inr (.inl ⟨rfl, h1', h2, h3, h4⟩)
        · rw [if_neg h4]; exact .inr (.inr ⟨rfl, h1', h2, h3, by omega⟩)
      · have h3' : n % 2 ^ lvl.toNat ≠ 0 := fun h => h3 (Nat.dvd_of_mod_eq_zero h)
        rw [if_pos h3']; exact .inl ⟨rfl, .inr (.inr h3)⟩

/-- CONFIG either raises what its checks answer or installs an empty filter. -/
theorem execConfig_cases (way lvl : BitVec 4) (cnt : BitVec 32) (s : State) :
    (∃ e, configError s way lvl cnt = some e ∧ execConfig way lvl cnt s = .next (s.respond (errorResponse e))) ∨
    (configError s way lvl cnt = none ∧
      execConfig way lvl cnt s = .next ((s.install way lvl cnt 0#64 Memory.zeros).respond ⟨.ok, 0#64, 0#64, 0#64⟩)) := by
  unfold execConfig
  cases configError s way lvl cnt with
  | some e => exact .inl ⟨e, rfl, rfl⟩
  | none => exact .inr ⟨rfl, rfl⟩

/-- LOAD either raises what its checks answer or installs the image. -/
theorem execLoad_cases (way lvl : BitVec 4) (uniq : Word) (image : List Byte) (s : State) :
    (∃ e, loadError s way lvl image.length = some e ∧
      execLoad way lvl uniq image s = .next (s.respond (errorResponse e))) ∨
    (loadError s way lvl image.length = none ∧
      execLoad way lvl uniq image s =
        .next ((s.install way lvl (BitVec.ofNat 32 (image.length >>> lvl.toNat)) uniq (Memory.ofBytes 0 image)).respond
          ⟨.ok, 0#64, 0#64, 0#64⟩)) := by
  unfold execLoad
  cases loadError s way lvl image.length with
  | some e => exact .inl ⟨e, rfl, rfl⟩
  | none => exact .inr ⟨rfl, rfl⟩

/-- RDREG answers a register up to 7 and raises OUT_OF_RANGE above. -/
theorem execRdreg_cases (reg : BitVec 32) (s : State) :
    (reg.toNat ≤ 7 ∧ ∃ v, s.register reg.toNat = some v ∧ execRdreg reg s = .next (s.respond ⟨.ok, v, 0#64, 0#64⟩)) ∨
    (7 < reg.toNat ∧ execRdreg reg s = .next (s.respond (errorResponse .outOfRange))) := by
  unfold execRdreg
  by_cases h : reg.toNat ≤ 7
  · left
    refine ⟨h, ?_⟩
    generalize reg.toNat = n at h ⊢
    interval_cases n <;> exact ⟨_, rfl, rfl⟩
  · right
    refine ⟨by omega, ?_⟩
    have : s.register reg.toNat = none := by
      unfold State.register
      split <;> first | omega | rfl
    rw [this]; rfl

/-- RDBUF on a configured engine answers eight bytes inside the buffer and raises OUT_OF_RANGE beyond; it never faults. -/
theorem execRdbuf_configured {s : State} (index : BitVec 32) (h : s.cfgValid = 1#1) :
    (index.toNat < s.bufBytes / 8 ∧
      execRdbuf index s = .next (s.respond ⟨.ok, leWord (s.buf.bytes (8 * index.toNat) 8), 0#64, 0#64⟩)) ∨
    (s.bufBytes / 8 ≤ index.toNat ∧ execRdbuf index s = .next (s.respond (errorResponse .outOfRange))) := by
  unfold execRdbuf
  rw [whenConfigured_of_configured h]
  by_cases hi : s.bufBytes / 8 ≤ index.toNat
  · rw [if_pos hi]; exact .inr ⟨hi, rfl⟩
  · rw [if_neg hi, memReadWord_of_le (by omega)]; exact .inl ⟨by omega, rfl⟩

/-! ### The probe loops -/

/-- The memory SET's loop leaves: each probe's mask ORed in, in order. -/
def orMasks : List (Nat × Byte) → Memory → Memory
  | [], m => m
  | (A, k) :: ps, m => orMasks ps (m.write A (m.read A ||| k))

/-- The outcome SET's loop accumulates. -/
def priorHits : List (Nat × Byte) → Memory → Bool → Bool
  | [], _, hit => hit
  | (A, k) :: ps, m, hit => priorHits ps (m.write A (m.read A ||| k)) (hitAfter hit (m.read A) k)

/-- The loop ends with a result exactly when every probe's address exists, and then it has changed the buffer alone. -/
theorem setProbes_eq {ps : List (Nat × Byte)} {s : State} {hit : Bool} (h : ∀ p ∈ ps, p.1 < s.bufBytes) :
    setProbes ps s hit = some (s.setBuf (orMasks ps s.buf), priorHits ps s.buf hit) := by
  induction ps generalizing s hit with
  | nil => rfl
  | cons p ps ih =>
    obtain ⟨A, k⟩ := p
    have hA : A < s.bufBytes := h (A, k) List.mem_cons_self
    rw [setProbes, memReadByte_of_lt hA]
    dsimp only
    rw [memWriteByte_of_lt hA]
    dsimp only
    exact ih (s := s.setBuf _) fun p hp => h p (List.mem_cons_of_mem _ hp)

theorem setProbes_eq_some {ps : List (Nat × Byte)} {s s' : State} {hit hit' : Bool}
    (h : setProbes ps s hit = some (s', hit')) :
    (∀ p ∈ ps, p.1 < s.bufBytes) ∧ s' = s.setBuf (orMasks ps s.buf) ∧ hit' = priorHits ps s.buf hit := by
  suffices hall : ∀ p ∈ ps, p.1 < s.bufBytes by
    rw [setProbes_eq hall] at h
    cases h
    exact ⟨hall, rfl, rfl⟩
  induction ps generalizing s hit with
  | nil => simp
  | cons p ps ih =>
    obtain ⟨A, k⟩ := p
    rw [setProbes] at h
    by_cases hA : A < s.bufBytes
    · rw [memReadByte_of_lt hA] at h
      dsimp only at h
      rw [memWriteByte_of_lt hA] at h
      intro p hp
      rcases List.mem_cons.1 hp with rfl | hp
      · exact hA
      · exact ih h p hp
    · rw [memReadByte_of_not_lt hA] at h
      cases h

/-- TEST's loop likewise; `hit` stays true exactly while every probed bit is 1. -/
theorem testProbes_eq {ps : List (Nat × Byte)} {s : State} {hit : Bool} (h : ∀ p ∈ ps, p.1 < s.bufBytes) :
    testProbes ps s hit = some (hit && ps.all fun p => bitIsSet (s.buf.read p.1) p.2) := by
  induction ps generalizing hit with
  | nil => simp [testProbes]
  | cons p ps ih =>
    obtain ⟨A, k⟩ := p
    have hA : A < s.bufBytes := h (A, k) List.mem_cons_self
    rw [testProbes, memReadByte_of_lt hA]
    dsimp only
    rw [ih fun p hp => h p (List.mem_cons_of_mem _ hp), hitAfter, List.all_cons, Bool.and_assoc]

theorem orMasks_wf (ps : List (Nat × Byte)) {m : Memory} (h : m.wf) : (orMasks ps m).wf := by
  induction ps generalizing m with
  | nil => exact h
  | cons p ps ih => exact ih (Memory.write_wf _ _ h)

/-- The loop lists no address but those listed before and the probes' own. -/
theorem mem_orMasks {ps : List (Nat × Byte)} {m : Memory} {c : Host.Cell} (h : c ∈ orMasks ps m) :
    c ∈ m ∨ ∃ p ∈ ps, c.1 = p.1 := by
  induction ps generalizing m with
  | nil => exact .inl h
  | cons p ps ih =>
    rcases ih h with h | ⟨q, hq, he⟩
    · rcases Memory.mem_write h with h | h
      · exact .inl h
      · exact .inr ⟨p, List.mem_cons_self, by rw [h]⟩
    · exact .inr ⟨q, List.mem_cons_of_mem _ hq, he⟩

/-- An address no probe names reads as before. -/
theorem read_orMasks_other {ps : List (Nat × Byte)} {m : Memory} {a : Nat} (h : ∀ p ∈ ps, p.1 ≠ a) :
    (orMasks ps m).read a = m.read a := by
  induction ps generalizing m with
  | nil => rfl
  | cons p ps ih =>
    rw [orMasks, ih fun p hp => h p (List.mem_cons_of_mem _ hp),
      Memory.read_write_other _ (h p List.mem_cons_self).symm]

/-- A bit is 1 after the loop exactly when it was 1 or a probe's mask has it. -/
theorem getLsbD_orMasks {ps : List (Nat × Byte)} {m : Memory} (h : m.wf) (a k : Nat) :
    ((orMasks ps m).read a).getLsbD k = true ↔
      (m.read a).getLsbD k = true ∨ ∃ p ∈ ps, p.1 = a ∧ p.2.getLsbD k = true := by
  induction ps generalizing m with
  | nil => simp [orMasks]
  | cons p ps ih =>
    obtain ⟨A, mask⟩ := p
    rw [orMasks, ih (Memory.write_wf _ _ h)]
    by_cases ha : a = A
    · subst ha
      rw [Memory.read_write_same _ _ h, BitVec.getLsbD_or, Bool.or_eq_true]
      constructor
      · rintro ((h | h) | ⟨p, hp, h⟩)
        · exact .inl h
        · exact .inr ⟨_, List.mem_cons_self, rfl, h⟩
        · exact .inr ⟨p, List.mem_cons_of_mem _ hp, h⟩
      · rintro (h | ⟨p, hp, h⟩)
        · exact .inl (.inl h)
        · rcases List.mem_cons.1 hp with rfl | hp
          · exact .inl (.inr h.2)
          · exact .inr ⟨p, hp, h⟩
    · rw [Memory.read_write_other _ ha]
      constructor
      · rintro (h | ⟨p, hp, h⟩)
        · exact .inl h
        · exact .inr ⟨p, List.mem_cons_of_mem _ hp, h⟩
      · rintro (h | ⟨p, hp, h⟩)
        · exact .inl h
        · rcases List.mem_cons.1 hp with rfl | hp
          · exact absurd h.1.symm ha
          · exact .inr ⟨p, hp, h⟩

end Sys2Proof.Machine
end

