-- ==== Sys2Proof/Laws/PerInstr.lean ====
section
/-! SUPPORT. Facts about every instruction as syntax, one lemma per constructor. -/

namespace Sys2Proof.Laws.EncodedHeader

/-- The header an instruction is encoded with names its opcode, has RSVD = 0 (R71), and asks for exactly the payload it comes with
(R73). -/
def Statement (i : Instr) : Prop :=
  i.wellFormed = true →
    ∃ op : Opcode, headerOpc (encode i).header = op.code ∧ headerRsvd (encode i).header = 0#16 ∧
      (encode i).payload.length = op.payloadLength (headerArg (encode i).header)

/-- A length that fits ARG is read back from it. -/
theorem arg_length {n : Nat} (h : n ≤ Config.keyBytesMax) : (BitVec.ofNat 32 n).toNat = n := by
  rw [BitVec.toNat_ofNat]; exact Nat.mod_eq_of_lt (by unfold Config.keyBytesMax at h; omega)

/-- The key commands, whose PLEN is ARG. -/
theorem key_command (op : Opcode) (hop : ∀ a, op.payloadLength a = a.toNat) (key : List Byte) (h : key.length ≤ Config.keyBytesMax) :
    headerOpc (keyCommand op key).header = op.code ∧ headerRsvd (keyCommand op key).header = 0#16 ∧
      (keyCommand op key).payload.length = op.payloadLength (headerArg (keyCommand op key).header) := by
  refine ⟨headerOpc_mkHeader .., headerRsvd_mkHeader .., ?_⟩
  rw [hop]; unfold keyCommand; rw [headerArg_mkHeader, arg_length h]

theorem config (way pageLevel : BitVec 4) (pageCount : BitVec 32) : Statement (.config way pageLevel pageCount) :=
  fun _ => ⟨.config, headerOpc_mkHeader .., headerRsvd_mkHeader .., rfl⟩

theorem load (way pageLevel : BitVec 4) (uniqueCount : Word) (image : List Byte) :
    Statement (.load way pageLevel uniqueCount image) := by
  intro h
  refine ⟨.load, headerOpc_mkHeader .., headerRsvd_mkHeader .., ?_⟩
  simp only [encode, Opcode.payloadLength, headerArg_mkHeader, List.length_append, leBytes_length]
  rw [arg_length (of_decide_eq_true h)]

theorem clear : Statement .clear := fun _ => ⟨.clear, headerOpc_mkHeader .., headerRsvd_mkHeader .., rfl⟩

theorem set (key : List Byte) : Statement (.set key) :=
  fun h => ⟨.set, key_command .set (fun _ => rfl) key (of_decide_eq_true h)⟩

theorem test (key : List Byte) : Statement (.test key) :=
  fun h => ⟨.test, key_command .test (fun _ => rfl) key (of_decide_eq_true h)⟩

theorem probe (key : List Byte) : Statement (.probe key) :=
  fun h => ⟨.probe, key_command .probe (fun _ => rfl) key (of_decide_eq_true h)⟩

theorem digest (key : List Byte) : Statement (.digest key) :=
  fun h => ⟨.digest, key_command .digest (fun _ => rfl) key (of_decide_eq_true h)⟩

theorem rdreg (reg : BitVec 32) : Statement (.rdreg reg) := fun _ => ⟨.rdreg, headerOpc_mkHeader .., headerRsvd_mkHeader .., rfl⟩

theorem rdbuf (index : BitVec 32) : Statement (.rdbuf index) := fun _ => ⟨.rdbuf, headerOpc_mkHeader .., headerRsvd_mkHeader .., rfl⟩

end Sys2Proof.Laws.EncodedHeader
end

