-- ==== Sys2Proof/Laws/Step.lean ====
section
/-! SUPPORT. What a step and each command can do, said once: the case lemmas the provers cite instead of unfolding. -/

namespace Sys2Proof.Machine

/-- One step of the host's run. -/
theorem core_run_succ (M : Host.Core) (k : Nat) (s t : M.State) (h : M.step s = .next t) : M.run (k + 1) s = M.run k t := by
  rw [Host.Core.run, h]

/-- A run whose first step answers a next state goes on from it. -/
theorem run_succ {s t : State} (k : Nat) (h : step s = .next t) : Host.Core.run Sys2Proof.core (k + 1) s = Host.Core.run Sys2Proof.core k t :=
  core_run_succ Sys2Proof.core k s t h

/-- All a step can be: the run of one command in a state with the same engine and record, nothing (idle, no input), or a reset. -/
theorem step_cases {s : State} {o : Result} (h : step s = o) :
    (∃ c s0, runCommand c s0 = o ∧ s0.engine = s.engine ∧ s0.responses = s.responses ∧
       ((s.port = .busy c ∧ s0 = s ∧ s.inputs.head? ≠ some .reset) ∨ (∃ rest, s.port = .idle ∧ s.inputs = .command c :: rest ∧ s0 = (s.setInputs rest).accept c))) ∨
    (o = .next s ∧ s.port = .idle ∧ s.inputs = []) ∨
    (∃ s0 : State, o = .next s0.takeReset ∧ s0.engine = s.engine ∧ s0.responses = s.responses ∧ (s.inputs.head? = some .reset ∨ ∃ c, s.inputs.head? = some (.resetDuring c))) := by
  unfold step stepPort at h
  split at h
  · next c hp =>
    unfold stepBusy at h
    split at h
    · next rest hi => exact .inr (.inr ⟨s.setInputs rest, h.symm, rfl, rfl, by simp [hi]⟩)
    · next hi => exact .inl ⟨c, s, h, rfl, rfl, .inl ⟨hp, rfl, by
        intro hh
        cases hl : s.inputs with
        | nil => simp [hl] at hh
        | cons a b => rw [hl] at hh; simp at hh; subst hh; exact hi _ hl⟩⟩
  · next hp =>
    unfold stepIdle at h
    split at h
    · next hi => exact .inr (.inl ⟨h.symm, hp, hi⟩)
    · next c rest hi => exact .inl ⟨c, _, h, rfl, rfl, .inr ⟨rest, hp, hi, rfl⟩⟩
    · next rest hi => exact .inr (.inr ⟨s.setInputs rest, h.symm, rfl, rfl, by simp [hi]⟩)
    · next c rest hi => exact .inr (.inr ⟨(s.setInputs rest).accept c, h.symm, rfl, rfl, by simp [hi]⟩)

/-- The invariant reads the engine only. -/
theorem inv_engine {s t : State} (he : t.engine = s.engine) (h : s.Inv) : t.Inv := by
  obtain ⟨a,b,c,d,e,f,g,i,j,k⟩ := s
  obtain ⟨a',b',c',d',e',f',g',i',j',k'⟩ := t
  simp only [State.engine, Engine.mk.injEq] at he
  obtain ⟨rfl,rfl,rfl,rfl,rfl,rfl,rfl⟩ := he
  exact ⟨h.1, h.2, h.3, h.4, h.5, h.6, h.7, h.8⟩

/-- Reset leaves the invariant whole. -/
theorem inv_reset {s : State} (h : s.Inv) : s.takeReset.Inv := by
  refine ⟨by simp, by simp, by simp, by simp, by simp, Memory.wf_nil, by simp, h.max_range⟩

/-- `BUF_BYTES` as a product (R27). -/
theorem bufBytes_mul {s : State} (h : s.cfgValid = 1#1) : s.bufBytes = s.pageCount.toNat * 2 ^ s.pageLevel.toNat := by
  rw [State.bufBytes_configured h, Nat.shiftLeft_eq]

/-- Every probe is the address and the mask of one of the first WAY positions (R137). -/
theorem probes_mem {s : State} {key : List Byte} {p : Nat × Byte} (h : p ∈ s.probes key) :
    ∃ j, j < 8 ∧ j < s.way.toNat ∧ p = (probeAddress (s.pageOffset (digestValue key)) (s.bitPosition (digestValue key) j), probeMask (s.bitPosition (digestValue key) j)) := by
  unfold State.probes State.probeSet at h
  dsimp only at h
  rw [List.mem_map] at h
  obtain ⟨b, hb, rfl⟩ := h
  rw [← List.map_take, List.mem_map] at hb
  obtain ⟨j, hj, rfl⟩ := hb
  rw [List.take_range, List.mem_range] at hj
  exact ⟨j, by omega, by omega, rfl⟩

/-- The mask of R136 keeps the low bits. -/
theorem bitPosition_toNat (s : State) (V : BitVec 128) (j : Nat) (h : s.pageLevel.toNat ≤ 13) :
    (s.bitPosition V j).toNat = (probeCode V j).toNat % 2 ^ (s.pageLevel.toNat + 3) := by
  unfold State.bitPosition
  rw [BitVec.toNat_and, BitVec.toNat_ofNat]
  have hp : 2 ^ (s.pageLevel.toNat + 3) ≤ 2 ^ 16 := Nat.pow_le_pow_right (by norm_num) (by omega)
  rw [Nat.mod_eq_of_lt (by have := Nat.two_pow_pos (s.pageLevel.toNat + 3); omega), Nat.and_two_pow_sub_one_eq_mod]

/-- All SET can do on a configured engine (R150). -/
theorem execSet_cases (key : List Byte) (s : State) (hc : s.cfgValid = 1#1) :
   (∃ h, (∀ p ∈ s.probes key, p.1 < s.bufBytes) ∧ h = priorHits (s.probes key) s.buf true ∧
     execSet key s = .next (if h then (s.setBuf (orMasks (s.probes key) s.buf)).respond ⟨.ok,0,0,0⟩ else ((s.setBuf (orMasks (s.probes key) s.buf)).countNew).respond ⟨.ok,1,0,0⟩)) ∨
   (execSet key s = .fault .noSuchAddress ∧ ¬ ∀ p ∈ s.probes key, p.1 < s.bufBytes) := by
  unfold execSet
  rw [whenConfigured_of_configured hc]
  cases h : setProbes (s.probes key) s true with
  | none =>
    right; refine ⟨rfl, fun hall => ?_⟩
    rw [setProbes_eq hall] at h; cases h
  | some r =>
    obtain ⟨s', hit⟩ := r
    obtain ⟨h1, h2, h3⟩ := setProbes_eq_some h
    left; refine ⟨_, h1, h3, ?_⟩
    dsimp only
    subst h2; cases hit <;> rfl

/-- All TEST can do on a configured engine (R151). -/
theorem execTest_cases (key : List Byte) (s : State) (hc : s.cfgValid = 1#1) :
   ((∀ p ∈ s.probes key, p.1 < s.bufBytes) ∧ 
     execTest key s = .next (s.respond ⟨.ok, boolWord ((s.probes key).all fun p => bitIsSet (s.buf.read p.1) p.2), 0, 0⟩)) ∨
   (∃ h, execTest key s = .next (s.respond ⟨.ok,h,0,0⟩)) ∨ execTest key s = .fault .noSuchAddress := by
  unfold execTest
  rw [whenConfigured_of_configured hc]
  by_cases hall : ∀ p ∈ s.probes key, p.1 < s.bufBytes
  · left; refine ⟨hall, ?_⟩
    rw [testProbes_eq hall]; rfl
  · cases testProbes (s.probes key) s true with
    | none => exact .inr (.inr rfl)
    | some r => exact .inr (.inl ⟨_, rfl⟩)

/-- All a command can do when it answers a next state: only a response; a new filter; CLEAR's zeros; SET's bits and count. -/
theorem exec_next {i : Instr} {s t : State} (h : exec i s = .next t) :
    (∃ r, t = s.respond r ∧ (r.status = .ok ∨ r = errorResponse r.status)) ∨
    (∃ w l n u m, t = (s.install w l n u m).respond ⟨.ok,0,0,0⟩ ∧ makesFilter i = true) ∨
    (i = .clear ∧ s.cfgValid = 1#1 ∧ t = (s.setBuf Memory.zeros).respond ⟨.ok,0,0,0⟩) ∨
    (∃ key, i = .set key ∧ s.cfgValid = 1#1 ∧ (∀ p ∈ s.probes key, p.1 < s.bufBytes) ∧
       t = if priorHits (s.probes key) s.buf true then (s.setBuf (orMasks (s.probes key) s.buf)).respond ⟨.ok,0,0,0⟩ else ((s.setBuf (orMasks (s.probes key) s.buf)).countNew).respond ⟨.ok,1,0,0⟩) := by
  have err : ∀ e, Host.Outcome.next (φ := Fault) (ρ := Refusal) (s.respond (errorResponse e)) = .next t → ∃ r, t = s.respond r ∧ (r.status = .ok ∨ r = errorResponse r.status) := by
    intro e he; cases he; exact ⟨_, rfl, .inr rfl⟩
  have ok : ∀ a b c, Host.Outcome.next (φ := Fault) (ρ := Refusal) (s.respond ⟨.ok,a,b,c⟩) = .next t → ∃ r, t = s.respond r ∧ (r.status = .ok ∨ r = errorResponse r.status) := by
    intro a b c he; cases he; exact ⟨_, rfl, .inl rfl⟩
  cases i <;> simp only [exec] at h
  case config w l n =>
    rcases execConfig_cases w l n s with ⟨e, he, h'⟩ | ⟨he, h'⟩
    · rw [h'] at h; exact .inl (err e h)
    · rw [h'] at h; cases h; exact .inr (.inl ⟨_,_,_,_,_, rfl, rfl⟩)
  case load w l u m =>
    rcases execLoad_cases w l u m s with ⟨e, he, h'⟩ | ⟨he, h'⟩
    · rw [h'] at h; exact .inl (err e h)
    · rw [h'] at h; cases h; exact .inr (.inl ⟨_,_,_,_,_, rfl, rfl⟩)
  case clear =>
    rcases s.cfgValid_cases with hc | hc
    · unfold execClear at h; rw [whenConfigured_of_unconfigured hc] at h; exact .inl (err _ h)
    · unfold execClear at h; rw [whenConfigured_of_configured hc] at h; cases h; exact .inr (.inr (.inl ⟨rfl, hc, rfl⟩))
  case set key =>
    rcases s.cfgValid_cases with hc | hc
    · unfold execSet at h; rw [whenConfigured_of_unconfigured hc] at h; exact .inl (err _ h)
    · rcases execSet_cases key s hc with ⟨hh, h1, rfl, h2⟩ | ⟨h2, -⟩
      · rw [h2] at h; cases h; exact .inr (.inr (.inr ⟨key, rfl, hc, h1, rfl⟩))
      · rw [h2] at h; cases h
  case test key =>
    rcases s.cfgValid_cases with hc | hc
    · unfold execTest at h; rw [whenConfigured_of_unconfigured hc] at h; exact .inl (err _ h)
    · rcases execTest_cases key s hc with ⟨h1, h2⟩ | ⟨_, h2⟩ | h2
      · rw [h2] at h; exact .inl (ok _ _ _ h)
      · rw [h2] at h; exact .inl (ok _ _ _ h)
      · rw [h2] at h; cases h
  case probe key =>
    rcases s.cfgValid_cases with hc | hc
    · unfold execProbe at h; rw [whenConfigured_of_unconfigured hc] at h; exact .inl (err _ h)
    · unfold execProbe at h; rw [whenConfigured_of_configured hc] at h; exact .inl (ok _ _ _ h)
  case digest key => exact .inl (ok _ _ _ h)
  case rdreg n =>
    rcases execRdreg_cases n s with ⟨_, v, _, h2⟩ | ⟨_, h2⟩
    · rw [h2] at h; exact .inl (ok _ _ _ h)
    · rw [h2] at h; exact .inl (err _ h)
  case rdbuf n =>
    rcases s.cfgValid_cases with hc | hc
    · unfold execRdbuf at h; rw [whenConfigured_of_unconfigured hc] at h; exact .inl (err _ h)
    · rcases execRdbuf_configured n hc with ⟨_, h2⟩ | ⟨_, h2⟩
      · rw [h2] at h; exact .inl (ok _ _ _ h)
      · rw [h2] at h; exact .inl (err _ h)

end Sys2Proof.Machine
end

