-- ==== Sys2Proof/Tests/Slice0.lean ====
section
/-! SUPPORT. Tests and witnesses. Expected results come from the spec: V<n> is a vector of 95_test_vectors.md. Each witness shows values that
meet every hypothesis of the obligation it is named after. -/

namespace Sys2Proof.Tests

open Sys2Proof.Machine

/-! ### Helpers -/

/-- The outcome is a next state with the property. -/
def answers (o : Result) (p : State → Bool) : Bool :=
  match o with
  | .next t => p t
  | .fault _ => false
  | .refused _ => false

theorem answers_next {o : Result} {p : State → Bool} (h : answers o p = true) : ∃ t, o = .next t ∧ p t = true := by
  cases o with
  | next t => exact ⟨t, rfl, h⟩
  | fault r => cases h
  | refused r => cases h

/-- The newest response is this one. -/
def newest (r : Response) (t : State) : Bool := t.responses.head? == some r

/-- The ASCII bytes of a text. -/
def ascii (s : String) : List Byte := s.toList.map fun c => BitVec.ofNat 8 c.toNat

/-- The 36 bytes of V2. -/
def alphabet : List Byte := ascii "0123456789abcdefghijklmnopqrstuvwxyz"

/-- After CONFIG 6, 7, 3. -/
def fresh : State := { State.reset with cfgValid := 1#1, way := 6#4, pageLevel := 7#4, pageCount := 3#32 }

/-- After CONFIG 6, 7, 3 and SET of the empty key (V18, step 2). -/
def holding : State :=
  { fresh with uniqueCount := 1#64,
               buf := [(285, 0x01#8), (291, 0x02#8), (312, 0x80#8), (351, 0x10#8), (356, 0x80#8), (382, 0x20#8)] }

/-- The filter of P1: CONFIG 4, 6, 1 and SET of the empty key. -/
def small : State :=
  { State.reset with cfgValid := 1#1, way := 4#4, pageLevel := 6#4, pageCount := 1#32, uniqueCount := 1#64,
                     buf := [(31, 0x10#8), (35, 0x02#8), (36, 0x80#8), (62, 0x20#8)] }

/-- A filter whose 64 bytes are all 0xff, with the count 5 (V15). -/
def full : State := { small with uniqueCount := 5#64, buf := (List.range 64).map fun a => (a, 0xff#8) }

/-- The largest filter that fits 2^20 bytes: CONFIG 8, 13, 128 (V14). -/
def large : State := { State.reset with cfgValid := 1#1, way := 8#4, pageLevel := 13#4, pageCount := 128#32 }

theorem fresh_inv : fresh.Inv := by constructor <;> decide
theorem holding_inv : holding.Inv := by constructor <;> decide
theorem small_inv : small.Inv := by constructor <;> decide
theorem full_inv : full.Inv := by constructor <;> decide
theorem large_inv : large.Inv := by constructor <;> decide

/-! ### Well-formedness: one ill-formed term for each check (R74, V22) -/

theorem test_refused_opcode_low : decode ⟨0x0000000000000000#64, []⟩ = .error .reservedOpcode ∧
    Command.wellFormed ⟨0x0000000000000000#64, []⟩ = false := by decide
theorem test_refused_opcode_high : decode ⟨0x000000000000000a#64, []⟩ = .error .reservedOpcode ∧
    Command.wellFormed ⟨0x00000000000000ff#64, []⟩ = false := by decide
theorem test_refused_rsvd : decode ⟨0x0000000300017601#64, []⟩ = .error .reservedField ∧
    Command.wellFormed ⟨0x0000000300017601#64, []⟩ = false := by decide
theorem test_refused_way : decode ⟨0x0000000000000106#64, []⟩ = .error .strayParameter ∧
    Command.wellFormed ⟨0x0000000000000106#64, []⟩ = false := by decide
theorem test_refused_plvl : decode ⟨0x0000000000001008#64, []⟩ = .error .strayParameter ∧
    Command.wellFormed ⟨0x0000000000001008#64, []⟩ = false := by decide
theorem test_refused_clear_arg : decode ⟨0x0000000100000003#64, []⟩ = .error .clearArgument ∧
    Command.wellFormed ⟨0x0000000100000003#64, []⟩ = false := by decide
theorem test_refused_key_length : decode ⟨0x0000000300000004#64, [0, 0]⟩ = .error .payloadLength ∧
    Command.wellFormed ⟨0x0000000300000004#64, [0, 0]⟩ = false := by decide
theorem test_refused_config_payload : decode ⟨0x0000000300007601#64, [0]⟩ = .error .payloadLength ∧
    Command.wellFormed ⟨0x0000000300007601#64, [0]⟩ = false := by decide

/-- A key of 2^32 bytes has no encoding. -/
theorem test_refused_long_keys :
    Instr.wellFormed (.set (List.replicate (2 ^ 32) 0#8)) = false ∧ Instr.wellFormed (.test (List.replicate (2 ^ 32) 0#8)) = false ∧
    Instr.wellFormed (.probe (List.replicate (2 ^ 32) 0#8)) = false ∧ Instr.wellFormed (.digest (List.replicate (2 ^ 32) 0#8)) = false ∧
    Instr.wellFormed (.load 4#4 6#4 0#64 (List.replicate (2 ^ 32) 0#8)) = false := by
  simp only [Instr.wellFormed, List.length_replicate]; decide

/-! ### Decoding: words written out bit by bit (R71: ARG, RSVD, PLVL, WAY, OPC) -/

theorem test_decode_config :
    decode ⟨0b00000000000000000000000000000011_0000000000000000_0111_0110_00000001#64, []⟩ = .ok (.config 6#4 7#4 3#32) := by decide
theorem test_decode_load :
    decode ⟨0b00000000000000000000000000000010_0000000000000000_0110_0100_00000010#64, [7, 0, 0, 0, 0, 0, 0, 1, 0xaa, 0x55]⟩ =
      .ok (.load 4#4 6#4 0x0100000000000007#64 [0xaa, 0x55]) := by decide
theorem test_decode_clear :
    decode ⟨0b00000000000000000000000000000000_0000000000000000_0000_0000_00000011#64, []⟩ = .ok .clear := by decide
theorem test_decode_set :
    decode ⟨0b00000000000000000000000000000001_0000000000000000_0000_0000_00000100#64, [0x61]⟩ = .ok (.set [0x61]) := by decide
theorem test_decode_test :
    decode ⟨0b00000000000000000000000000000001_0000000000000000_0000_0000_00000101#64, [0x61]⟩ = .ok (.test [0x61]) := by decide
theorem test_decode_probe :
    decode ⟨0b00000000000000000000000000000001_0000000000000000_0000_0000_00000110#64, [0x61]⟩ = .ok (.probe [0x61]) := by decide
theorem test_decode_digest :
    decode ⟨0b00000000000000000000000000000001_0000000000000000_0000_0000_00000111#64, [0x61]⟩ = .ok (.digest [0x61]) := by decide
theorem test_decode_rdreg :
    decode ⟨0b00000000000000000000000000000110_0000000000000000_0000_0000_00001000#64, []⟩ = .ok (.rdreg 6#32) := by decide
theorem test_decode_rdbuf :
    decode ⟨0b00000000000000011111111111111111_0000000000000000_0000_0000_00001001#64, []⟩ = .ok (.rdbuf 131071#32) := by decide

/-- The table's numbering: a LOAD header asks for 8 + ARG payload bytes, which follow from bit 64 up. -/
theorem test_decode_table_word :
    decodeTableWord 64 0x0000000000006402 = some (.load 4#4 6#4 0#64 []) ∧ decodeTableWord 72 0x610000000100000004 = some (.set [0x61]) ∧
    decodeTableWord 64 0x0a = none := by decide

/-! ### The assembler (R79); the words are those of V15, V16, V12 -/

theorem test_assemble_config : assembleLine "CONFIG 6, 7, 3".toList = some ⟨0x0000000300007601#64, []⟩ := by decide
theorem test_assemble_load :
    assembleLine "LOAD 4, 6, 7, zeros(64)".toList = some ⟨0x0000004000006402#64, leBytes 8 7 ++ List.replicate 64 0#8⟩ := by decide
theorem test_assemble_le32 : assembleLine "PROBE le32(150)".toList = some ⟨0x0000000400000006#64, [0x96, 0, 0, 0]⟩ := by decide
theorem test_assemble_register : assembleLine "RDREG UNIQUE_COUNT".toList = some ⟨0x0000000300000008#64, []⟩ := by decide
theorem test_assemble_quoted : assembleLine "SET \"a,b\"".toList = some ⟨0x0000000300000004#64, [0x61, 0x2c, 0x62]⟩ := by decide
theorem test_assemble_hex : assembleLine "DIGEST x\"00 8F ff\"".toList = some ⟨0x0000000300000007#64, [0, 0x8f, 0xff]⟩ := by decide

/-- Log 18, the model's choice: blanks between hex bytes are free, and none stands inside a byte. -/
theorem test_assemble_hex_blanks : parseHexBytes "0011".toList = some [0x00, 0x11] ∧ parseHexBytes " 00  11 ".toList = some [0x00, 0x11] ∧
    parseHexBytes "0 0".toList = none := by decide

/-! ### The digest (V6 to V9) -/

/-- V7. -/
theorem test_mix : mix ⟨1#64, 2#64, 3#64, 4#64⟩ =
    ⟨0x2bf7518bd9f16648#64, 0x9a082a6452e0d6f5#64, 0x8811513fd3edb160#64, 0x03826f115d34e2bd#64⟩ := by decide
/-- V7. -/
theorem test_end : finalise ⟨1#64, 2#64, 3#64, 4#64⟩ =
    ⟨0xd05bc6ce4c6b2efe#64, 0x8616ffe259af1463#64, 0xcc8d19644d5efedd#64, 0x6491d728a1b49620#64⟩ := by decide
/-- V1, the source's own vector. -/
theorem test_digest_empty : digest [] = (0x232706fc6bf50919#64, 0x8b72ee65b4e851c7#64) := by decide
/-- V6, tails of 1, 8, 12 bytes; 16 bytes; a block and 4 bytes. -/
theorem test_digest_lengths :
    digest (alphabet.take 1) = (0x50209687d54ec67e#64, 0x62fe85108df1cf6d#64) ∧
    digest (alphabet.take 8) = (0x7a9378dcdf599479#64, 0x30f5a569a74ecdd7#64) ∧
    digest (alphabet.take 12) = (0xc3fcc139e4c6832a#64, 0xdadfeff6e01e2f2e#64) ∧
    digest (alphabet.take 16) = (0xe2d06846964b80ad#64, 0x6005068ac75c4c20#64) ∧
    digest alphabet = (0xb7c97db807c32f38#64, 0x510723230adef63d#64) := by decide
/-- V8: one block and a residual half block. -/
theorem test_digest_block_and_half : digest (List.replicate 48 0#8) = (0xfcfc23ff0f2f936f#64, 0x1e1d72b4fc8e0518#64) := by decide
/-- V9: tail bytes are zero-extended. -/
theorem test_digest_unsigned_tail : digest (List.replicate 9 0xff#8) = (0xb804495918cdb223#64, 0xc5b5674c95c77ad0#64) := by decide

/-! ### The commands, one step each -/

/-- V14: CONFIG 8, 13, 128 fits exactly; V14: 129 pages do not. -/
theorem test_config : answers (exec (.config 8#4 13#4 128#32) State.reset) (fun t => newest ⟨.ok, 0, 0, 0⟩ t && t.engine == large.engine) ∧
    answers (exec (.config 8#4 13#4 129#32) State.reset) (newest ⟨.capacityOverflow, 0, 0, 0⟩) := by decide
/-- V14: pageCount is checked before the size, and a failed CONFIG changes nothing. -/
theorem test_config_refused : answers (exec (.config 8#4 13#4 0x80000000#32) holding)
    (fun t => newest ⟨.invalidParameter, 0, 0, 0⟩ t && t.engine == holding.engine) := by decide
/-- P1, step 14. -/
theorem test_load : answers (exec (.load 4#4 6#4 1#64 (small.buf.bytes 0 64)) fresh)
    (fun t => newest ⟨.ok, 0, 0, 0⟩ t && t.engine == small.engine) := by decide
/-- V15: 65 bytes are no whole number of pages. -/
theorem test_load_refused : answers (exec (.load 4#4 6#4 7#64 (List.replicate 65 0#8)) fresh)
    (newest ⟨.invalidParameter, 0, 0, 0⟩) := by decide
/-- V21: CLEAR keeps the count. -/
theorem test_clear : answers (exec .clear holding)
    (fun t => newest ⟨.ok, 0, 0, 0⟩ t && t.engine == { fresh.engine with uniqueCount := 1#64 }) := by decide
/-- V18, step 2. -/
theorem test_set : answers (exec (.set []) fresh) (fun t => newest ⟨.ok, 1, 0, 0⟩ t && t.engine == holding.engine) := by decide
/-- V12: two probes on one bit are one insertion of five bits. -/
theorem test_set_shared_bit : answers (exec (.set (leBytes 4 150)) fresh) (fun t => newest ⟨.ok, 1, 0, 0⟩ t && t.uniqueCount == 1#64 &&
    t.buf == [(28, 0x01#8), (50, 0x04#8), (61, 0x04#8), (114, 0x20#8), (121, 0x04#8)]) := by decide
/-- V18, steps 3 and 5. -/
theorem test_test : answers (exec (.test []) holding) (newest ⟨.ok, 1, 0, 0⟩) ∧
    answers (exec (.test [0x61#8]) holding) (newest ⟨.ok, 0, 0, 0⟩) := by decide
/-- V11, row 1; V11, row 7 (all eight positions come back at WAY 7). -/
theorem test_probe : answers (exec (.probe []) fresh) (newest ⟨.ok, 0x100, 0x032702fc03f50119, 0x0372026500e801c7⟩) := by decide
theorem test_probe_way7 : answers (exec (.probe alphabet) { fresh with way := 7#4, pageLevel := 8#4 })
    (newest ⟨.ok, 0, 0x07c905b807c30738, 0x0107032302de063d⟩) := by decide
/-- V11, row 1: the bytes and bits SET and TEST use, in order. -/
theorem test_probes : fresh.probes [] =
    [(291, 1#8 <<< 1), (382, 1#8 <<< 5), (351, 1#8 <<< 4), (356, 1#8 <<< 7), (312, 1#8 <<< 7), (285, 1#8 <<< 0)] := by decide
/-- V10: DIGEST works before any CONFIG. -/
theorem test_digest : answers (exec (.digest []) State.reset) (newest ⟨.ok, 0x232706fc6bf50919, 0x8b72ee65b4e851c7, 0⟩) := by decide
/-- V16: CAPACITY after CONFIG 6, 7, 3; BUF_BYTES_MAX after reset. -/
theorem test_rdreg : answers (exec (.rdreg 4#32) fresh) (newest ⟨.ok, 512, 0, 0⟩) ∧
    answers (exec (.rdreg 7#32) State.reset) (newest ⟨.ok, 0x100000, 0, 0⟩) := by decide
/-- V17. -/
theorem test_rdbuf : answers (exec (.rdbuf 36#32) holding) (newest ⟨.ok, 0x0000000002000000, 0, 0⟩) ∧
    answers (exec (.rdbuf 48#32) holding) (newest ⟨.outOfRange, 0, 0, 0⟩) := by decide
/-- V17, V23: RDBUF after reset is NOT_CONFIGURED rather than OUT_OF_RANGE. -/
theorem test_rdbuf_unconfigured : answers (exec (.rdbuf 1000#32) State.reset) (newest ⟨.notConfigured, 0, 0, 0⟩) := by decide
/-- V22: an ill-formed command through the port. -/
theorem test_illegal : answers (step (State.reset.withFetchWord 64 0x000000000000000a)) (newest ⟨.illegalCommand, 0, 0, 0⟩) := by decide
/-- V10, through the port: the table's word for DIGEST runs as the first command after reset. -/
theorem test_first_command : answers (step (State.reset.withFetchWord 64 0x0000000000000007))
    (newest ⟨.ok, 0x232706fc6bf50919, 0x8b72ee65b4e851c7, 0⟩) := by decide
/-- R231: reset during a command drops it and the filter. -/
theorem test_reset_during : answers (step { holding with inputs := [.resetDuring ⟨4#64, []⟩] }) (fun t => t == State.reset) := by decide

/-! ### Witnesses -/

theorem witness_decodeOfEncode : Instr.wellFormed (.load 4#4 6#4 7#64 [0xaa, 0x55]) = true ∧ Instr.wellFormed (.set []) = true := by decide
theorem witness_encodeOfDecode : decode ⟨0x0000000100000004#64, [0x61]⟩ = .ok (.set [0x61]) := by decide
theorem witness_byteStreamRoundTrip : Command.wellFormed ⟨0x0000000100000004#64, [0x61]⟩ = true ∧
    Command.wellFormed ⟨0x0000000000006402#64, List.replicate 8 0#8⟩ = true := by decide
theorem witness_assembledLines : assembleLine "RDBUF 0x23".toList = some ⟨0x2300000009#64, []⟩ := by decide
theorem witness_reset : State.inputs { holding with inputs := [.reset, .command ⟨3#64, []⟩] } = .reset :: [.command ⟨3#64, []⟩] := by decide
theorem witness_resetDuring :
    (State.port { holding with port := .busy ⟨3#64, []⟩, inputs := [.reset] } = .busy ⟨3#64, []⟩ ∧
      State.inputs { holding with port := .busy ⟨3#64, []⟩, inputs := [.reset] } = .reset :: []) ∧
    (State.port { holding with inputs := [.resetDuring ⟨3#64, []⟩] } = .idle ∧
      State.inputs { holding with inputs := [.resetDuring ⟨3#64, []⟩] } = .resetDuring ⟨3#64, []⟩ :: []) := by decide
theorem witness_stepRuns :
    (holding.port = .idle ∧ State.inputs { holding with inputs := [.command ⟨3#64, []⟩] } = .command ⟨3#64, []⟩ :: [] ∧
      decode ⟨3#64, []⟩ = .ok .clear ∧
      State.inputs { holding with inputs := [.command ⟨0x106#64, []⟩] } = .command ⟨0x106#64, []⟩ :: [] ∧
      Command.wellFormed ⟨0x106#64, []⟩ = false) ∧
    (State.port { holding with port := .busy ⟨3#64, []⟩, inputs := [.command ⟨4#64, []⟩] } = .busy ⟨3#64, []⟩ ∧
      State.inputs { holding with port := .busy ⟨3#64, []⟩, inputs := [.command ⟨4#64, []⟩] } = [.command ⟨4#64, []⟩] ∧
      [HostInput.command ⟨4#64, []⟩].head? ≠ some .reset ∧
      State.port { holding with port := .busy ⟨0x106#64, []⟩ } = .busy ⟨0x106#64, []⟩ ∧ holding.inputs.head? ≠ some .reset) := by decide

/-- A configured idle engine with two commands waiting. -/
def queued : State := { holding with inputs := [.command ⟨3#64, []⟩, .command ⟨5#64, []⟩] }

theorem queued_inv : queued.Inv := by constructor <;> decide

theorem witness_stepKeepsInvariant : queued.Inv ∧ ∃ t, step queued = .next t := by
  obtain ⟨t, h, -⟩ := answers_next (o := step queued) (p := fun _ => true) (by decide)
  exact ⟨queued_inv, t, h⟩
theorem witness_stepNeverStops : queued.Inv := queued_inv
theorem witness_everyCommand : queued.Inv ∧ queued.port = .idle ∧
    queued.inputs = [⟨3#64, []⟩, ⟨5#64, []⟩].map HostInput.command := ⟨queued_inv, rfl, rfl⟩
theorem witness_acceptanceOrder : ∃ t, queued.port = .idle ∧ queued.inputs = .command ⟨3#64, []⟩ :: [.command ⟨5#64, []⟩] ∧
    step queued = .next t ∧ State.port { queued with inputs := [.command ⟨3#64, []⟩] } = .idle ∧
    State.engine { queued with inputs := [.command ⟨3#64, []⟩] } = queued.engine := by
  obtain ⟨t, h, -⟩ := answers_next (o := step queued) (p := fun _ => true) (by decide)
  exact ⟨t, rfl, rfl, h, rfl, rfl⟩
theorem witness_sameEngine : ∃ t, queued.engine = holding.engine ∧ runCommand ⟨3#64, []⟩ queued = .next t := by
  obtain ⟨t, h, -⟩ := answers_next (o := runCommand ⟨3#64, []⟩ queued) (p := fun _ => true) (by decide)
  exact ⟨t, rfl, h⟩
theorem witness_aStep : ∃ t, step queued = .next t := witness_stepKeepsInvariant.2
theorem witness_deconfigure : ∃ t, step { holding with inputs := [.reset] } = .next t ∧ holding.cfgValid = 1#1 ∧ t.cfgValid = 0#1 := by
  obtain ⟨t, h, h'⟩ := answers_next (o := step { holding with inputs := [.reset] }) (p := fun t => t.cfgValid == 0#1) (by decide)
  exact ⟨t, h, rfl, eq_of_beq h'⟩
theorem witness_deconfigure_during : ∃ t, step { holding with inputs := [.resetDuring ⟨3#64, []⟩] } = .next t ∧
    holding.cfgValid = 1#1 ∧ t.cfgValid = 0#1 := by
  obtain ⟨t, h, h'⟩ := answers_next (o := step { holding with inputs := [.resetDuring ⟨3#64, []⟩] }) (p := fun t => t.cfgValid == 0#1) (by decide)
  exact ⟨t, h, rfl, eq_of_beq h'⟩

/-- SET meets the first clause, CLEAR the second, TEST the third. -/
theorem witness_writers : (∃ t, exec (.set []) holding = .next t ∧ makesFilter (.set []) = false) ∧
    (∃ t, exec .clear holding = .next t ∧ makesFilter .clear = false ∧ ∀ key, Instr.clear ≠ .set key) ∧
    (∃ t, exec (.test []) holding = .next t ∧ makesFilter (.test []) = false ∧ (∀ key, Instr.test [] ≠ .set key) ∧
      Instr.test [] ≠ .clear) := by
  obtain ⟨t, h, -⟩ := answers_next (o := exec (.set []) holding) (p := fun _ => true) (by decide)
  obtain ⟨u, k, -⟩ := answers_next (o := exec .clear holding) (p := fun _ => true) (by decide)
  obtain ⟨v, l, -⟩ := answers_next (o := exec (.test []) holding) (p := fun _ => true) (by decide)
  exact ⟨⟨t, h, rfl⟩, ⟨u, k, rfl, nofun⟩, ⟨v, l, rfl, nofun, nofun⟩⟩

/-- An ill-formed command, and a well-formed one that fails: the two sides of R203, and of R201. -/
theorem witness_illegal : (∃ t, runCommand ⟨0x106#64, []⟩ holding = .next t) ∧ Command.wellFormed ⟨0x106#64, []⟩ = false ∧
    (∃ t, runCommand ⟨0x0000003000000009#64, []⟩ holding = .next t ∧ newest ⟨.outOfRange, 0, 0, 0⟩ t = true) := by
  obtain ⟨t, h, -⟩ := answers_next (o := runCommand ⟨0x106#64, []⟩ holding) (p := fun _ => true) (by decide)
  exact ⟨⟨t, h⟩, rfl, answers_next (by decide)⟩

/-- A command of each kind R204 names, unconfigured. -/
theorem witness_notConfigured : State.reset.cfgValid = 0#1 ∧ needsFilter .clear = true ∧ needsFilter (.rdbuf 0#32) = true ∧
    ∃ t r, exec .clear State.reset = .next t ∧ t.responses = r :: State.reset.responses := by
  obtain ⟨t, h, h'⟩ := answers_next (o := exec .clear State.reset) (p := fun t => t.responses == [⟨.notConfigured, 0, 0, 0⟩]) (by decide)
  exact ⟨rfl, rfl, rfl, t, _, h, eq_of_beq h'⟩

/-- The three exact error statements ask the same of an instruction and a state; each bound just missed and just met. -/
theorem witness_invalidParameter : ∀ i ∈ [Instr.config 3#4 7#4 3#32, .config 9#4 7#4 3#32, .config 5#4 6#4 1#32, .config 4#4 14#4 1#32,
    .config 4#4 6#4 0#32, .config 8#4 13#4 0x80000000#32, .load 4#4 6#4 0#64 [], .load 4#4 6#4 0#64 (List.replicate 65 0#8),
    .load 5#4 6#4 0#64 (List.replicate 64 0#8)],
    ∃ t r, exec i fresh = .next t ∧ t.responses = r :: fresh.responses ∧ r.status = .invalidParameter := by
  intro i hi
  have hall : answers (exec i fresh) (fun t => t.responses == [⟨.invalidParameter, 0, 0, 0⟩]) = true := by revert i; decide
  obtain ⟨t, h, h'⟩ := answers_next hall
  exact ⟨t, _, h, eq_of_beq h', rfl⟩
/-- An engine built with the least buffer, 64 bytes (R8). -/
def narrow : State := { State.reset with bufBytesMax := 64#64 }

theorem witness_capacityOverflow :
    (∃ t r, exec (.config 8#4 13#4 129#32) fresh = .next t ∧ t.responses = r :: fresh.responses ∧ r.status = .capacityOverflow) ∧
    (∃ t r, exec (.load 4#4 6#4 0#64 (List.replicate 128 0#8)) narrow = .next t ∧
      t.responses = r :: fresh.responses ∧ r.status = .capacityOverflow) := by
  obtain ⟨t, h, h'⟩ := answers_next (o := exec (.config 8#4 13#4 129#32) fresh)
    (p := fun t => t.responses == [⟨.capacityOverflow, 0, 0, 0⟩]) (by decide)
  refine ⟨⟨t, _, h, eq_of_beq h', rfl⟩,
    narrow.respond (errorResponse .capacityOverflow), errorResponse .capacityOverflow, ?_, rfl, rfl⟩
  have he : loadError narrow 4#4 6#4 (List.replicate 128 0#8).length = some .capacityOverflow := by
    rw [List.length_replicate]; decide
  show execLoad 4#4 6#4 0#64 (List.replicate 128 0#8) narrow = _
  unfold execLoad; rw [he]; rfl
theorem witness_outOfRange : ∀ i ∈ [Instr.rdreg 8#32, .rdreg 0xffffffff#32, .rdbuf 48#32],
    ∃ t r, exec i fresh = .next t ∧ t.responses = r :: fresh.responses ∧ r.status = .outOfRange := by
  intro i hi
  have hall : answers (exec i fresh) (fun t => t.responses == [⟨.outOfRange, 0, 0, 0⟩]) = true := by revert i; decide
  obtain ⟨t, h, h'⟩ := answers_next hall
  exact ⟨t, _, h, eq_of_beq h', rfl⟩

theorem witness_keyCommands : holding.Inv ∧ holding.cfgValid = 1#1 ∧ (Instr.clear = .clear) ∧ (∃ key, Instr.set [] = .set key) ∧
    (∃ key, Instr.test [] = .test key) ∧ (∃ key, Instr.probe [] = .probe key) ∧ State.reset.Inv ∧ ∃ key, Instr.digest [] = .digest key :=
  ⟨holding_inv, rfl, rfl, ⟨_, rfl⟩, ⟨_, rfl⟩, ⟨_, rfl⟩, by constructor <;> decide, ⟨_, rfl⟩⟩
theorem witness_leastPageLevel : 4 ≤ 4 ∧ 4 ≤ 8 ∧ 8 ≤ 8 := by decide

/-- The smallest filter, and the largest that fits 2^20 bytes. -/
theorem witness_config (w l : BitVec 4) (c : BitVec 32) (h : (w, l, c) ∈ [(4#4, 6#4, 1#32), (5#4, 7#4, 1#32), (8#4, 13#4, 128#32)]) :
    4 ≤ w.toNat ∧ w.toNat ≤ 8 ∧ 8 - 8 / w.toNat ≤ l.toNat ∧ l.toNat ≤ 13 ∧ 1 ≤ c.toNat ∧
      c.toNat ≤ 2 ^ 31 - 1 ∧ c.toNat * 2 ^ l.toNat ≤ State.reset.bufBytesMax.toNat := by
  simp only [List.mem_cons, Prod.mk.injEq, List.not_mem_nil, or_false] at h
  rcases h with ⟨rfl, rfl, rfl⟩ | ⟨rfl, rfl, rfl⟩ | ⟨rfl, rfl, rfl⟩ <;> decide
theorem witness_load : (List.replicate 64 0#8).length ≤ 2 ^ 32 - 1 ∧ 4 ≤ (4#4).toNat ∧ (4#4).toNat ≤ 8 ∧
    8 - 8 / (4#4).toNat ≤ (6#4).toNat ∧ (6#4).toNat ≤ 13 ∧ (List.replicate 64 0#8).length ≠ 0 ∧
    2 ^ (6#4).toNat ∣ (List.replicate 64 0#8).length ∧ (List.replicate 64 0#8).length ≤ State.reset.bufBytesMax.toNat := by decide

/-- The registers 0 and 7, configured and not, and the first reserved number. -/
theorem witness_rdreg : fresh.Inv ∧ fresh.cfgValid = 1#1 ∧ State.reset.Inv ∧ State.reset.cfgValid = 0#1 ∧
    (0#32).toNat ≤ 6 ∧ (6#32).toNat ≤ 6 ∧ (7#32).toNat ≤ 7 ∧ 7 < (8#32).toNat :=
  ⟨fresh_inv, rfl, by constructor <;> decide, rfl, by decide, by decide, by decide, by decide⟩
/-- The last word of the buffer, and the first beyond it. -/
theorem witness_rdbuf : holding.cfgValid = 1#1 ∧ (47#32).toNat < holding.bufBytes / 8 ∧ holding.bufBytes / 8 ≤ (48#32).toNat := by decide

/-- P1, steps 4 to 11: the words of the small filter. -/
def smallWords : List Word := [0, 0, 0, 0x1000000000000000, 0x0000008002000000, 0, 0, 0x0020000000000000]

theorem small_words_read : ∀ i ∈ List.range 8, answers (exec (.rdbuf (BitVec.ofNat 32 i)) small)
    (fun t => t.responses.map some == [smallWords[i]?.map fun w => ⟨.ok, w, 0#64, 0#64⟩]) = true := by decide

theorem witness_exported : small.Inv ∧ small.cfgValid = 1#1 ∧ small.bufBytes ≤ 2 ^ 32 - 1 ∧ fresh.bufBytesMax = small.bufBytesMax ∧
    smallWords.length = small.bufBytes / 8 ∧
    ∀ (i : Nat) (w : Word), smallWords[i]? = some w →
      ∃ t, exec (.rdbuf (BitVec.ofNat 32 i)) small = .next t ∧ t.responses = ⟨.ok, w, 0#64, 0#64⟩ :: small.responses := by
  refine ⟨small_inv, rfl, by decide, rfl, by decide, fun i w hw => ?_⟩
  have hi : i < 8 := (List.getElem?_eq_some_iff.1 hw).1
  obtain ⟨t, h, h'⟩ := answers_next (small_words_read i (List.mem_range.2 hi))
  refine ⟨t, h, ?_⟩
  have h'' := eq_of_beq h'
  rw [hw] at h''
  cases hr : t.responses with
  | nil => rw [hr] at h''; cases h''
  | cons r rs => rw [hr] at h''; simp at h''; rw [h''.1, h''.2]; rfl

theorem witness_rotations : 1 ≤ 1 ∧ 63 ≤ 63 ∧ 1 ≤ 31 ∧ 31 ≤ 31 := by decide
/-- Each clause of the tail rule at its ends. -/
theorem witness_tail : ∀ n ∈ [0, 1, 8, 9, 15], (List.replicate n 0xff#8).length ≤ 15 := by decide
theorem witness_shortKeys : (List.replicate 15 0#8).length < 16 ∧ 16 ≤ (List.replicate 16 0#8).length ∧
    (List.replicate 31 0#8).length < 32 ∧ 16 ≤ (List.replicate 31 0#8).length := by decide
theorem witness_bitPositions : 7 < 8 ∧ fresh.pageLevel.toNat ≤ 13 ∧ large.pageLevel.toNat ≤ 13 := by decide

/-- The hypotheses of the probe, SET and TEST statements: a configured engine, and its first and last probe. -/
theorem witness_configured : holding.Inv ∧ holding.cfgValid = 1#1 ∧ 0 < holding.way.toNat ∧ 5 < holding.way.toNat ∧
    large.Inv ∧ large.cfgValid = 1#1 ∧ 7 < large.way.toNat :=
  ⟨holding_inv, rfl, by decide, by decide, large_inv, rfl, by decide⟩
/-- The two clauses of SET and of TEST: the empty key is held, the key "a" is not (V18). -/
theorem witness_setInserts : holding.Inv ∧ holding.cfgValid = 1#1 ∧ holding.allProbedBitsSet [] ∧ ¬ holding.allProbedBitsSet [0x61#8] := by
  refine ⟨holding_inv, rfl, ?_, ?_⟩ <;> unfold State.allProbedBitsSet <;> decide
/-- SET of the empty key in a fresh filter, and an address none of its probes has. -/
theorem witness_setFrame : (∃ t, exec (.set []) fresh = .next t) ∧ ∀ p ∈ fresh.probes [], p.1 ≠ 0 := by
  obtain ⟨t, h, -⟩ := answers_next (o := exec (.set []) fresh) (p := fun _ => true) (by decide)
  exact ⟨⟨t, h⟩, by decide⟩
theorem witness_emptyAndFull : fresh.Inv ∧ fresh.cfgValid = 1#1 ∧ (∀ a, a < fresh.bufBytes → fresh.buf.read a = 0#8) ∧
    full.Inv ∧ full.cfgValid = 1#1 ∧ (∀ a, a < full.bufBytes → full.buf.read a = 0xff#8) :=
  ⟨fresh_inv, rfl, fun _ _ => rfl, full_inv, rfl, by decide⟩
theorem witness_clear : holding.cfgValid = 1#1 := rfl
theorem witness_reading : ∀ i ∈ [Instr.test [], .probe [], .digest [], .rdreg 3#32, .rdbuf 36#32],
    readsOnly i = true ∧ ∃ t, exec i holding = .next t := by
  intro i hi
  have hall : readsOnly i = true ∧ answers (exec i holding) (fun _ => true) = true := by revert i; decide
  obtain ⟨t, h, -⟩ := answers_next hall.2
  exact ⟨hall.1, t, h⟩
theorem witness_fill : holding.Inv ∧ keepsBits (.set [0x61#8]) = true ∧ ∃ t, exec (.set [0x61#8]) holding = .next t := by
  obtain ⟨t, h, -⟩ := answers_next (o := exec (.set [0x61#8]) holding) (p := fun _ => true) (by decide)
  exact ⟨holding_inv, rfl, t, h⟩
/-- SET of the empty key, then SET of "a", then the state in which the empty key is tested. -/
theorem witness_noFalseNegatives : ∃ t u, fresh.Inv ∧ fresh.cfgValid = 1#1 ∧ exec (.set []) fresh = .next t ∧
    (∀ i ∈ [Instr.set [0x61#8]], keepsBits i = true) ∧ runs [.set [0x61#8]] t u := by
  obtain ⟨t, h, h'⟩ := answers_next (o := exec (.set []) fresh)
    (p := fun t => answers (exec (.set [0x61#8]) t) (fun _ => true)) (by decide)
  obtain ⟨u, hu, -⟩ := answers_next h'
  exact ⟨t, u, fresh_inv, rfl, h, by decide, u, hu, rfl⟩
theorem witness_repeatedSet : fresh.Inv ∧ fresh.cfgValid = 1#1 ∧ ∃ t, exec (.set []) fresh = .next t :=
  ⟨fresh_inv, rfl, witness_setFrame.1⟩
/-- One clause each: a command that keeps the bits, one that does not, and reset. -/
theorem witness_probedBits : holding.Inv ∧ holding.cfgValid = 1#1 ∧ holding.allProbedBitsSet [] ∧
    (∃ t, step { holding with inputs := [.command ⟨5#64, []⟩] } = .next t) ∧
    (∃ t, step { holding with inputs := [.command ⟨3#64, []⟩] } = .next t) ∧
    (∃ t, step { holding with inputs := [.reset] } = .next t) := by
  obtain ⟨t, h, -⟩ := answers_next (o := step { holding with inputs := [.command ⟨5#64, []⟩] }) (p := fun _ => true) (by decide)
  exact ⟨holding_inv, rfl, witness_setInserts.2.2.1, ⟨t, h⟩, ⟨_, rfl⟩, ⟨_, rfl⟩⟩
/-- The largest value of each number field, and every form of key operand, the empty key among them. -/
theorem witness_assembledLinesWrite :
    (NumberText.decimal 15).value < 16 ∧ (NumberText.hexadecimal 0xffffffff).value < 2 ^ 32 ∧
    (NumberText.hexadecimal 0xffffffffffffffff).value < 2 ^ 64 ∧ (KeyText.quoted []).Legal ∧ (KeyText.quoted ['a', ',', ' ']).Legal ∧
    (KeyText.hexBytes [0x00#8, 0x8f#8]).Legal ∧ (KeyText.le32 (.decimal 150)).Legal ∧ (KeyText.le64 (.hexadecimal 7)).Legal ∧
    (KeyText.zeros (.decimal 64)).Legal ∧ (KeyText.bytes (.zeros (.decimal 64))).length < 2 ^ 32 ∧
    (KeyText.bytes (.quoted [])).length < 2 ^ 32 := by
  refine ⟨by decide, by decide, by decide, by simp [KeyText.Legal], ?_, trivial, by unfold KeyText.Legal; decide,
    by unfold KeyText.Legal; decide, by unfold KeyText.Legal; decide, ?_, by decide⟩
  · simp [KeyText.Legal, quoteChar]
  · rw [KeyText.bytes, List.length_replicate]; decide

/-- The texts of R79's operand forms, and of a line: the last is V15's first LOAD. -/
theorem test_operand_texts :
    (KeyText.le32 (.decimal 150)).text = "le32(150)".toList ∧ (KeyText.hexBytes [0x00#8, 0x8f#8]).text = "x\"00 8f\"".toList ∧
    (KeyText.quoted ['a', 'b']).text = "\"ab\"".toList ∧ (NumberText.hexadecimal 0x23).text = "0x23".toList ∧
    lineText "LOAD" [(NumberText.decimal 4).text, (NumberText.decimal 6).text, (NumberText.decimal 7).text,
      (KeyText.zeros (.decimal 64)).text] = "LOAD 4, 6, 7, zeros(64)".toList := by decide

end Sys2Proof.Tests
end

section
/-! PROOFS. Determinism of a command (R18, R31, R34). A state is an engine with a host side around it (port, inputs, record of
responses); running a command commutes with exchanging the host side, so what it answers depends on the engine alone. -/

namespace Sys2Proof.Machine

/-- The engine of `s` with the port, the inputs and the record of responses of `host`. -/
def State.withHostOf (s host : State) : State := { s with port := host.port, inputs := host.inputs, responses := host.responses }

/-- The outcome `o`, reached from `s`, and the outcome `o'`, reached from the engine of `s` with the host side of `host`, end alike:
when the first answers, it adds one response, and the second is the first with that response given on the host side of `host`. -/
def AnswersAlike (s host : State) (o o' : Result) : Prop :=
  ∀ t, o = .next t → ∃ r, t.responses = r :: s.responses ∧ o' = .next (t.withHostOf (host.respond r))

variable {s host : State}

/-! ### What the commands read does not depend on the host side -/

@[simp] theorem State.withHostOf_engine : (s.withHostOf host).engine = s.engine := rfl
@[simp] theorem State.withHostOf_bufBytes : (s.withHostOf host).bufBytes = s.bufBytes := rfl
@[simp] theorem State.withHostOf_register (n : Nat) : (s.withHostOf host).register n = s.register n := rfl
@[simp] theorem State.withHostOf_probes (key : List Byte) : (s.withHostOf host).probes key = s.probes key := rfl
@[simp] theorem State.withHostOf_memReadByte (a : Nat) : (s.withHostOf host).memReadByte a = s.memReadByte a := rfl
@[simp] theorem State.withHostOf_memReadWord (a : Nat) : (s.withHostOf host).memReadWord a = s.memReadWord a := rfl

@[simp] theorem configError_withHostOf (way lvl : BitVec 4) (cnt : BitVec 32) :
    configError (s.withHostOf host) way lvl cnt = configError s way lvl cnt := rfl

@[simp] theorem loadError_withHostOf (way lvl : BitVec 4) (n : Nat) :
    loadError (s.withHostOf host) way lvl n = loadError s way lvl n := rfl

/-- States with equal engines differ in the host side alone. -/
theorem State.withHostOf_eq_of_engine_eq (he : s.engine = host.engine) : s.withHostOf host = host := by
  cases s
  cases host
  simp only [State.engine, Engine.mk.injEq] at he
  obtain ⟨rfl, rfl, rfl, rfl, rfl, rfl, rfl⟩ := he
  rfl

/-- SET's loop leaves the host side alone. -/
theorem setProbes_withHostOf {ps : List (Nat × Byte)} {u : State} {hit b : Bool} (hu : setProbes ps s hit = some (u, b)) :
    setProbes ps (s.withHostOf host) hit = some (u.withHostOf host, b) := by
  obtain ⟨hps, rfl, rfl⟩ := setProbes_eq_some hu
  exact setProbes_eq (s := s.withHostOf host) hps

/-- TEST's loop does not see the host side. -/
@[simp] theorem testProbes_withHostOf (ps : List (Nat × Byte)) (hit : Bool) :
    testProbes ps (s.withHostOf host) hit = testProbes ps s hit := by
  induction ps generalizing hit with
  | nil => rfl
  | cons p ps ih =>
    rw [testProbes, testProbes, State.withHostOf_memReadByte]
    cases s.memReadByte p.1 with
    | none => rfl
    | some old => exact ih (hitAfter hit old p.2)

/-! ### The ways a command ends -/

/-- `u` is what the command has made of `s` before it answers. -/
theorem answersAlike_respond (u : State) (hu : u.responses = s.responses) (r : Response) :
    AnswersAlike s host (.next (u.respond r)) (.next ((u.withHostOf host).respond r)) := by
  rintro t ⟨⟩
  exact ⟨r, by rw [State.respond_responses, hu], rfl⟩

theorem answersAlike_raiseStatus (e : Status) : AnswersAlike s host (raiseStatus e s) (raiseStatus e (s.withHostOf host)) :=
  answersAlike_respond s rfl (errorResponse e)

theorem answersAlike_fault (e : Fault) (o' : Result) : AnswersAlike s host (.fault e) o' := by
  rintro t ⟨⟩

theorem answersAlike_whenConfigured {k k' : Result} (hk : AnswersAlike s host k k') :
    AnswersAlike s host (whenConfigured s k) (whenConfigured (s.withHostOf host) k') := by
  rcases s.cfgValid_cases with hc | hc
  · rw [whenConfigured_of_unconfigured hc, whenConfigured_of_unconfigured (s := s.withHostOf host) hc]
    exact answersAlike_respond s rfl _
  · rwa [whenConfigured_of_configured hc, whenConfigured_of_configured (s := s.withHostOf host) hc]

/-! ### The commands -/

theorem answersAlike_execConfig (way lvl : BitVec 4) (cnt : BitVec 32) :
    AnswersAlike s host (execConfig way lvl cnt s) (execConfig way lvl cnt (s.withHostOf host)) := by
  unfold execConfig
  rw [configError_withHostOf]
  cases configError s way lvl cnt with
  | some e => exact answersAlike_raiseStatus e
  | none => exact answersAlike_respond (s.install ..) rfl _

theorem answersAlike_execLoad (way lvl : BitVec 4) (uniq : Word) (image : List Byte) :
    AnswersAlike s host (execLoad way lvl uniq image s) (execLoad way lvl uniq image (s.withHostOf host)) := by
  unfold execLoad
  rw [loadError_withHostOf]
  cases loadError s way lvl image.length with
  | some e => exact answersAlike_raiseStatus e
  | none => exact answersAlike_respond (s.install ..) rfl _

theorem answersAlike_execClear : AnswersAlike s host (execClear s) (execClear (s.withHostOf host)) :=
  answersAlike_whenConfigured (answersAlike_respond (s.setBuf Memory.zeros) rfl _)

theorem answersAlike_execSet (key : List Byte) :
    AnswersAlike s host (execSet key s) (execSet key (s.withHostOf host)) := by
  refine answersAlike_whenConfigured ?_
  rw [State.withHostOf_probes]
  cases hp : setProbes (s.probes key) s true with
  | none => exact answersAlike_fault _ _
  | some ub =>
    obtain ⟨u, b⟩ := ub
    have hu : u.responses = s.responses := by
      obtain ⟨-, rfl, -⟩ := setProbes_eq_some hp
      rfl
    rw [setProbes_withHostOf hp]
    cases b with
    | true => exact answersAlike_respond u hu _
    | false => exact answersAlike_respond u.countNew hu _

theorem answersAlike_execTest (key : List Byte) :
    AnswersAlike s host (execTest key s) (execTest key (s.withHostOf host)) := by
  refine answersAlike_whenConfigured ?_
  rw [State.withHostOf_probes, testProbes_withHostOf]
  cases testProbes (s.probes key) s true with
  | none => exact answersAlike_fault _ _
  | some hit => exact answersAlike_respond s rfl _

theorem answersAlike_execProbe (key : List Byte) :
    AnswersAlike s host (execProbe key s) (execProbe key (s.withHostOf host)) :=
  answersAlike_whenConfigured (answersAlike_respond s rfl _)

theorem answersAlike_execDigest (key : List Byte) :
    AnswersAlike s host (execDigest key s) (execDigest key (s.withHostOf host)) :=
  answersAlike_respond s rfl _

theorem answersAlike_execRdreg (reg : BitVec 32) :
    AnswersAlike s host (execRdreg reg s) (execRdreg reg (s.withHostOf host)) := by
  unfold execRdreg
  rw [State.withHostOf_register]
  cases s.register reg.toNat with
  | none => exact answersAlike_raiseStatus _
  | some v => exact answersAlike_respond s rfl _

theorem answersAlike_execRdbuf (index : BitVec 32) :
    AnswersAlike s host (execRdbuf index s) (execRdbuf index (s.withHostOf host)) := by
  refine answersAlike_whenConfigured ?_
  rw [State.withHostOf_bufBytes, State.withHostOf_memReadWord]
  split
  · exact answersAlike_raiseStatus _
  · cases s.memReadWord (8 * index.toNat) with
    | none => exact answersAlike_fault _ _
    | some v => exact answersAlike_respond s rfl _

theorem answersAlike_exec (i : Instr) : AnswersAlike s host (exec i s) (exec i (s.withHostOf host)) := by
  cases i with
  | config way lvl cnt => exact answersAlike_execConfig way lvl cnt
  | load way lvl uniq image => exact answersAlike_execLoad way lvl uniq image
  | clear => exact answersAlike_execClear
  | set key => exact answersAlike_execSet key
  | test key => exact answersAlike_execTest key
  | probe key => exact answersAlike_execProbe key
  | digest key => exact answersAlike_execDigest key
  | rdreg reg => exact answersAlike_execRdreg reg
  | rdbuf index => exact answersAlike_execRdbuf index

/-- Running any command, well-formed or not, commutes with exchanging the host side. -/
theorem answersAlike_runCommand (c : Command) : AnswersAlike s host (runCommand c s) (runCommand c (s.withHostOf host)) := by
  unfold runCommand
  cases decode c with
  | error e => exact answersAlike_raiseStatus .illegalCommand
  | ok i => exact answersAlike_exec i

/-- Settles O16: the second state is the first with another host side, and running a command commutes with that exchange. -/
theorem sameEngineSameCommandSameAnswer : Obligations.SameEngineSameCommandSameAnswer := by
  intro c s s' t he hrun
  obtain ⟨r, hr, hrun'⟩ := answersAlike_runCommand (host := s') c t hrun
  rw [State.withHostOf_eq_of_engine_eq he] at hrun'
  exact ⟨_, r, hrun', State.withHostOf_engine, hr, rfl⟩

end Sys2Proof.Machine
end

section
/-! PROOFS. The rotations of the digest and of the selector (R12). -/

namespace Sys2Proof.Machine

theorem rotl64_eq_rotateLeft (x : Word) {k : Nat} (hk : k < 64) : rotl64 x k = x.rotateLeft k := by
  rw [BitVec.rotateLeft_def, Nat.mod_eq_of_lt hk, rotl64]

theorem rotl32_eq_rotateLeft (x : BitVec 32) {k : Nat} (hk : k < 32) : rotl32 x k = x.rotateLeft k := by
  rw [BitVec.rotateLeft_def, Nat.mod_eq_of_lt hk, rotl32]

/-- Settles O35: below the width the library's rotation is the two shifts joined by OR, as the model writes it. -/
theorem rotationsRotateLeft : Obligations.RotationsRotateLeft :=
  ⟨fun x _ _ hk => rotl64_eq_rotateLeft x (Nat.lt_succ_of_le hk),
    fun x _ _ hk => rotl32_eq_rotateLeft x (Nat.lt_succ_of_le hk)⟩

end Sys2Proof.Machine
end

section
/-! PROOFS. What a command writes (R20, R201): one inversion lemma for `exec` and one for `runCommand`, with the checks that let the
write happen. The statements about every step are derived from it. -/

namespace Sys2Proof.Machine

/-- `Writes i s u`: the command `i`, run in `s`, may answer from `u`, the state it has made of `s` before its response. -/
inductive Writes : Instr → State → State → Prop
  /-- A command that fails or only reads. -/
  | nothing (i : Instr) (s : State) : Writes i s s
  | config {s : State} {way lvl : BitVec 4} {cnt : BitVec 32} (checked : configError s way lvl cnt = none) :
      Writes (.config way lvl cnt) s (s.install way lvl cnt 0#64 Memory.zeros)
  | load {s : State} {way lvl : BitVec 4} {uniq : Word} {image : List Byte}
      (checked : loadError s way lvl image.length = none) :
      Writes (.load way lvl uniq image) s
        (s.install way lvl (BitVec.ofNat 32 (image.length >>> lvl.toNat)) uniq (Memory.ofBytes 0 image))
  | clear {s : State} (configured : s.cfgValid = 1#1) : Writes .clear s (s.setBuf Memory.zeros)
  /-- SET of a key all of whose bits were set: the count stays. -/
  | setHeld {s : State} {key : List Byte} (configured : s.cfgValid = 1#1) (inside : ∀ p ∈ s.probes key, p.1 < s.bufBytes)
      (held : priorHits (s.probes key) s.buf true = true) :
      Writes (.set key) s (s.setBuf (orMasks (s.probes key) s.buf))
  /-- SET of a key one of whose bits was not set. -/
  | setNew {s : State} {key : List Byte} (configured : s.cfgValid = 1#1) (inside : ∀ p ∈ s.probes key, p.1 < s.bufBytes)
      (new : priorHits (s.probes key) s.buf true = false) :
      Writes (.set key) s (s.setBuf (orMasks (s.probes key) s.buf)).countNew

variable {i : Instr} {c : Command} {s t u : State}

/-! ### Inversion -/

theorem execConfig_writes {way lvl : BitVec 4} {cnt : BitVec 32} (h : execConfig way lvl cnt s = .next t) :
    ∃ u r, t = u.respond r ∧ Writes (.config way lvl cnt) s u := by
  rcases execConfig_cases way lvl cnt s with ⟨e, -, he⟩ | ⟨hchecked, he⟩ <;> cases he.symm.trans h
  · exact ⟨s, _, rfl, .nothing _ s⟩
  · exact ⟨_, _, rfl, .config hchecked⟩

theorem execLoad_writes {way lvl : BitVec 4} {uniq : Word} {image : List Byte} (h : execLoad way lvl uniq image s = .next t) :
    ∃ u r, t = u.respond r ∧ Writes (.load way lvl uniq image) s u := by
  rcases execLoad_cases way lvl uniq image s with ⟨e, -, he⟩ | ⟨hchecked, he⟩ <;> cases he.symm.trans h
  · exact ⟨s, _, rfl, .nothing _ s⟩
  · exact ⟨_, _, rfl, .load hchecked⟩

/-- A command that answers has made one of its writes and then responded. -/
theorem exec_writes (h : exec i s = .next t) : ∃ u r, t = u.respond r ∧ Writes i s u := by
  rcases exec_next h with ⟨r, rfl, -⟩ | ⟨_, _, _, _, _, -, hmakes⟩ | ⟨rfl, hc, rfl⟩ | ⟨key, rfl, hc, hin, rfl⟩
  · exact ⟨s, r, rfl, .nothing i s⟩
  · cases i with
    | config way lvl cnt => exact execConfig_writes h
    | load way lvl uniq image => exact execLoad_writes h
    | _ => cases hmakes
  · exact ⟨_, _, rfl, .clear hc⟩
  · split
    · next hheld => exact ⟨_, _, rfl, .setHeld hc hin hheld⟩
    · next hnew => exact ⟨_, _, rfl, .setNew hc hin (Bool.eq_false_of_not_eq_true hnew)⟩

/-- Running a command that answers is a response to an ill-formed command, or a write and a response. -/
theorem runCommand_writes (h : runCommand c s = .next t) : ∃ u r, t = u.respond r ∧ (u = s ∨ ∃ i, Writes i s u) := by
  unfold runCommand at h
  split at h
  · cases h
    exact ⟨s, _, rfl, .inl rfl⟩
  · next i _ =>
    obtain ⟨u, r, rfl, hw⟩ := exec_writes h
    exact ⟨u, r, rfl, .inr ⟨i, hw⟩⟩

/-! ### What no write touches -/

/-- Before its response a command touches neither the build-time size nor what is outside the engine (R29, log 2). -/
theorem Writes.outside_engine (h : Writes i s u) :
    u.inputs = s.inputs ∧ u.responses = s.responses ∧ u.bufBytesMax = s.bufBytesMax := by
  cases h <;> exact ⟨rfl, rfl, rfl⟩

/-- No command returns CFG_VALID to 0 (R21, R174). -/
theorem Writes.cfgValid (h : Writes i s u) (hc : s.cfgValid = 1#1) : u.cfgValid = 1#1 := by
  cases h with
  | config | load => rfl
  | nothing | clear | setHeld | setNew => exact hc

/-- A command that makes no filter keeps the configuration (R20). -/
theorem Writes.sameConfiguration (h : Writes i s u) (hi : makesFilter i = false) : SameConfiguration s u := by
  cases h with
  | config | load => cases hi
  | nothing | clear | setHeld | setNew => exact ⟨rfl, rfl, rfl, rfl⟩

/-- Of the commands that make no filter only SET writes the count (R20). -/
theorem Writes.uniqueCount (h : Writes i s u) (hi : makesFilter i = false) (hset : ∀ key, i ≠ .set key) :
    u.uniqueCount = s.uniqueCount := by
  cases h with
  | config | load => cases hi
  | setHeld | setNew => exact absurd rfl (hset _)
  | nothing | clear => rfl

/-- Of the commands that make no filter only SET and CLEAR write the buffer (R20). -/
theorem Writes.buf (h : Writes i s u) (hi : makesFilter i = false) (hset : ∀ key, i ≠ .set key) (hclear : i ≠ .clear) :
    u.buf = s.buf := by
  cases h with
  | config | load => cases hi
  | setHeld | setNew => exact absurd rfl (hset _)
  | clear => exact absurd rfl hclear
  | nothing => rfl

/-- A command that answers gives exactly one response, and does nothing else outside the engine. -/
theorem runCommand_answered (h : runCommand c s = .next t) : ∃ r, Answered s t r := by
  obtain ⟨u, r, rfl, rfl | ⟨i, hw⟩⟩ := runCommand_writes h
  · exact ⟨r, respond_answered u r⟩
  · obtain ⟨hinputs, hresponses, hmax⟩ := hw.outside_engine
    exact ⟨r, rfl, hinputs, congrArg (r :: ·) hresponses, hmax⟩

theorem runCommand_cfgValid (h : runCommand c s = .next t) (hc : s.cfgValid = 1#1) : t.cfgValid = 1#1 := by
  obtain ⟨u, r, rfl, rfl | ⟨i, hw⟩⟩ := runCommand_writes h
  · exact hc
  · exact hw.cfgValid hc

/-! ### The obligations -/

/-- Settles O17: a command keeps the constant, and so does reset. -/
theorem bufBytesMaxNeverChanges : Obligations.BufBytesMaxNeverChanges := by
  intro s t h
  rcases step_cases h with ⟨c, s0, hrun, he, -, -⟩ | ⟨ht, -, -⟩ | ⟨s0, ht, he, -, -⟩
  · obtain ⟨r, -, -, -, hmax⟩ := runCommand_answered hrun
    exact hmax.trans (congrArg Engine.bufBytesMax he)
  · cases ht
    rfl
  · cases ht
    exact congrArg Engine.bufBytesMax he

/-- Settles O18: neither a command nor an idle step leads from 1 to 0, and what remains of a step is reset. -/
theorem onlyResetDeconfigures : Obligations.OnlyResetDeconfigures := by
  intro s t h hs ht
  rcases step_cases h with ⟨c, s0, hrun, he, -, -⟩ | ⟨hidle, -, -⟩ | ⟨s0, -, -, -, hreset⟩
  · have hs0 : s0.cfgValid = 1#1 := (congrArg Engine.cfgValid he).trans hs
    exact absurd (ht.symm.trans (runCommand_cfgValid hrun hs0)) (by decide)
  · cases hidle
    exact absurd (ht.symm.trans hs) (by decide)
  · exact hreset

/-- Settles O19: the response writes no register and no byte, and each write names its command. -/
theorem writersOfEachRegister : Obligations.WritersOfEachRegister := by
  intro i s t h
  obtain ⟨u, r, rfl, hw⟩ := exec_writes h
  exact ⟨hw.sameConfiguration, hw.uniqueCount, hw.buf⟩

/-- Settles O20: a command adds its response; an idle step and reset add none. -/
theorem givenResponsesNeverChange : Obligations.GivenResponsesNeverChange := by
  intro s t h
  rcases step_cases h with ⟨c, s0, hrun, -, hr, -⟩ | ⟨ht, -, -⟩ | ⟨s0, ht, -, hr, -⟩
  · obtain ⟨r, -, -, hadded, -⟩ := runCommand_answered hrun
    exact .inr ⟨r, by rw [hadded, hr]⟩
  · cases ht
    exact .inl rfl
  · cases ht
    exact .inl hr

end Sys2Proof.Machine
end

section
/-! PROOFS. The configuration invariant (R30): it holds after reset, every write keeps it, hence every step does. -/

namespace Sys2Proof.Machine

variable {i : Instr} {s u : State}

/-! ### The updates of the engine -/

/-- A buffer in canonical form and inside BUF_BYTES may replace the old one. -/
theorem inv_setBuf {m : Memory} (h : s.Inv) (hwf : m.wf) (hin : ∀ c ∈ m, c.1 < s.bufBytes) : (s.setBuf m).Inv where
  unconfigured := h.unconfigured
  way_range := h.way_range
  level_range := h.level_range
  count_range := h.count_range
  size_fits := h.size_fits
  buf_wf := hwf
  buf_inside := hin
  max_range := h.max_range

/-- The count of a configured engine is free. -/
theorem inv_countNew (h : s.Inv) (hc : s.cfgValid = 1#1) : s.countNew.Inv where
  unconfigured h0 := absurd (hc.symm.trans h0) (by decide)
  way_range := h.way_range
  level_range := h.level_range
  count_range := h.count_range
  size_fits := h.size_fits
  buf_wf := h.buf_wf
  buf_inside := h.buf_inside
  max_range := h.max_range

/-- The parameters that R170 and R172 check make a filter that meets R30, whatever stood before. -/
theorem inv_install {way lvl : BitVec 4} {cnt : BitVec 32} {m : Memory} (uniq : Word) (h : s.Inv) (hshape : shapeOk way lvl = true)
    (hcnt : 1 ≤ cnt.toNat ∧ cnt.toNat ≤ 2 ^ 31 - 1) (hfits : cnt.toNat * 2 ^ lvl.toNat ≤ s.bufBytesMax.toNat)
    (hwf : m.wf) (hin : ∀ c ∈ m, c.1 < cnt.toNat * 2 ^ lvl.toNat) : (s.install way lvl cnt uniq m).Inv := by
  obtain ⟨hway_lo, hway_hi, hlvl_lo, hlvl_hi⟩ := (shapeOk_iff way lvl).1 hshape
  exact {
    unconfigured := nofun
    way_range := fun _ => ⟨hway_lo, hway_hi⟩
    level_range := fun _ => ⟨hlvl_lo, hlvl_hi⟩
    count_range := fun _ => hcnt
    size_fits := fun _ => hfits
    buf_wf := hwf
    buf_inside := fun c hc => by rw [State.install_bufBytes, Nat.shiftLeft_eq]; exact hin c hc
    max_range := h.max_range }

/-! ### The size of an image -/

/-- LvlMin is 6 at least: 6 for way 4, 7 for way 5 to 8 (R171). -/
theorem six_le_of_shapeOk {way lvl : BitVec 4} (h : shapeOk way lvl = true) : 6 ≤ lvl.toNat := by
  obtain ⟨hway, -, hlvl, -⟩ := (shapeOk_iff way lvl).1 h
  have : 8 / way.toNat ≤ 8 / 4 := Nat.div_le_div_left hway (by decide)
  omega

/-- LOAD's page count is the image's length in pages, which fits the register: the image has at most 2^35 bytes (R8), in pages of at
least 2^6. -/
theorem load_pageCount {way lvl : BitVec 4} {n : Nat} (hshape : shapeOk way lvl = true) (hn : n ≠ 0) (hdvd : 2 ^ lvl.toNat ∣ n)
    (hmax : n ≤ 2 ^ 35) :
    (BitVec.ofNat 32 (n >>> lvl.toNat)).toNat * 2 ^ lvl.toNat = n ∧
      1 ≤ (BitVec.ofNat 32 (n >>> lvl.toNat)).toNat ∧ (BitVec.ofNat 32 (n >>> lvl.toNat)).toNat ≤ 2 ^ 31 - 1 := by
  obtain ⟨k, rfl⟩ := hdvd
  have hpage : 2 ^ 6 ≤ 2 ^ lvl.toNat := Nat.pow_le_pow_right (by decide) (six_le_of_shapeOk hshape)
  have hk : 1 ≤ k := Nat.one_le_iff_ne_zero.2 (right_ne_zero_of_mul hn)
  have hk_max : 2 ^ 6 * k ≤ 2 ^ 35 := (Nat.mul_le_mul_right k hpage).trans hmax
  rw [Nat.shiftRight_eq_div_pow, Nat.mul_div_cancel_left k (Nat.two_pow_pos _), BitVec.toNat_ofNat, Nat.mod_eq_of_lt (by omega)]
  exact ⟨Nat.mul_comm .., hk, by omega⟩

/-! ### Every write -/

/-- SET lists only addresses listed before and addresses its probes name. -/
theorem orMasks_inside {ps : List (Nat × Byte)} (h : s.Inv) (hps : ∀ p ∈ ps, p.1 < s.bufBytes) :
    ∀ c ∈ orMasks ps s.buf, c.1 < s.bufBytes := by
  intro c hc
  rcases mem_orMasks hc with hold | ⟨p, hp, heq⟩
  · exact h.buf_inside c hold
  · exact heq ▸ hps p hp

theorem inv_setBuf_orMasks {ps : List (Nat × Byte)} (h : s.Inv) (hps : ∀ p ∈ ps, p.1 < s.bufBytes) :
    (s.setBuf (orMasks ps s.buf)).Inv :=
  inv_setBuf h (orMasks_wf ps h.buf_wf) (orMasks_inside h hps)

theorem Writes.inv (hw : Writes i s u) (h : s.Inv) : u.Inv := by
  cases hw with
  | nothing => exact h
  | config checked =>
    rcases configError_cases s _ _ _ with ⟨he, -⟩ | ⟨he, -⟩ | ⟨-, hshape, hlo, hhi, hfits⟩
    · cases he.symm.trans checked
    · cases he.symm.trans checked
    · exact inv_install 0#64 h hshape ⟨hlo, hhi⟩ hfits Memory.wf_zeros nofun
  | load checked =>
    rcases loadError_cases s _ _ _ with ⟨he, -⟩ | ⟨he, -⟩ | ⟨-, hshape, hne, hdvd, hfits⟩
    · cases he.symm.trans checked
    · cases he.symm.trans checked
    · obtain ⟨hsize, hcnt⟩ := load_pageCount hshape hne hdvd (hfits.trans h.max_range.2)
      refine inv_install _ h hshape hcnt (hsize.trans_le hfits) (Memory.ofBytes_wf 0 _) fun c hc => ?_
      have := Memory.mem_ofBytes hc
      omega
  | clear => exact inv_setBuf h Memory.wf_zeros nofun
  | setHeld _ inside => exact inv_setBuf_orMasks h inside
  | setNew configured inside => exact inv_countNew (inv_setBuf_orMasks h inside) configured

theorem runCommand_inv {c : Command} {t : State} (hrun : runCommand c s = .next t) (h : s.Inv) : t.Inv := by
  obtain ⟨u, r, rfl, rfl | ⟨i, hw⟩⟩ := runCommand_writes hrun
  · exact inv_engine (State.respond_engine u r) h
  · exact inv_engine (State.respond_engine u r) (hw.inv h)

/-! ### The obligations -/

/-- Settles O12: a step is a command, nothing or a reset, in a state with the same engine, and each keeps the invariant. -/
theorem stepKeepsInvariant : Obligations.StepKeepsInvariant := by
  intro s t h hstep
  rcases step_cases hstep with ⟨c, s0, hrun, he, -, -⟩ | ⟨ht, -, -⟩ | ⟨s0, ht, he, -, -⟩
  · exact runCommand_inv hrun (inv_engine he h)
  · cases ht
    exact h
  · cases ht
    exact inv_reset (inv_engine he h)

/-- Settles O10: no filter, no byte of it, and 2^20 in the range of R8. -/
theorem resetMeetsInvariant : Obligations.ResetMeetsInvariant where
  unconfigured _ := ⟨rfl, rfl, rfl, rfl⟩
  way_range := nofun
  level_range := nofun
  count_range := nofun
  size_fits := nofun
  buf_wf := Memory.wf_nil
  buf_inside := nofun
  max_range := by decide

end Sys2Proof.Machine
end

section
/-! PROOFS. What RDREG reads (R27, R28, R35, R173): under the invariant the two derived registers fit 64 bits, and every register but
BUF_BYTES_MAX is 0 while the engine is not configured. -/

namespace Sys2Proof.Machine

variable {s : State}

/-- BUF_BYTES never exceeds the largest build (R8, R30). -/
theorem bufBytes_le (h : s.Inv) : s.bufBytes ≤ 2 ^ 35 := by
  rcases s.cfgValid_cases with hc | hc
  · rw [State.bufBytes_unconfigured hc]
    decide
  · rw [bufBytes_mul hc]
    exact (h.size_fits hc).trans h.max_range.2

theorem State.capacity_configured (hc : s.cfgValid = 1#1) : s.capacity = s.bufBytes * 8 / s.way.toNat := by
  unfold State.capacity
  rw [if_neg (by rw [hc]; decide)]

theorem State.capacity_unconfigured (hc : s.cfgValid = 0#1) : s.capacity = 0 := if_pos hc

theorem bufBytes_word (h : s.Inv) : (BitVec.ofNat 64 s.bufBytes).toNat = s.bufBytes :=
  (BitVec.toNat_ofNat ..).trans (Nat.mod_eq_of_lt ((bufBytes_le h).trans_lt (by decide)))

theorem capacity_word (h : s.Inv) (hc : s.cfgValid = 1#1) : (BitVec.ofNat 64 s.capacity).toNat = s.bufBytes * 8 / s.way.toNat := by
  have hle : s.bufBytes * 8 / s.way.toNat ≤ s.bufBytes * 8 := Nat.div_le_self ..
  have := bufBytes_le h
  rw [State.capacity_configured hc, BitVec.toNat_ofNat, Nat.mod_eq_of_lt (by omega)]

/-- Registers 0 to 6 of an engine that is not configured (R27, R28, R30). -/
theorem register_unconfigured (h : s.Inv) (hc : s.cfgValid = 0#1) {n : Nat} (hn : n ≤ 6) : s.register n = some 0#64 := by
  obtain ⟨hway, hlvl, hcnt, huniq⟩ := h.unconfigured hc
  interval_cases n <;>
    simp [State.register, hway, hlvl, hcnt, huniq, hc, State.capacity_unconfigured, State.bufBytes_unconfigured]

/-- Settles O31: RDREG answers the register and only responds; each register's value is that of R35. -/
theorem rdregReadsEachRegister : Obligations.RdregReadsEachRegister := by
  intro s reg h
  rcases execRdreg_cases reg s with ⟨hle, v, hv, hexec⟩ | ⟨hgt, hexec⟩
  · refine ⟨fun _ => ⟨_, v, hexec, respond_answered s _, s.respond_engine _, ?_⟩, fun hgt => absurd hle (Nat.not_le.2 hgt)⟩
    have reads {n : Nat} {w : Word} (hn : reg.toNat = n) (hw : s.register n = some w) : v = w :=
      Option.some.inj (hv.symm.trans (hn ▸ hw))
    refine ⟨fun hn => ?_, fun hn => ?_, fun hn => ?_, fun hn => ?_, fun hn hc => ?_, fun hn hc => ?_, fun hn => ?_, fun hn => ?_,
      fun hn hc => ?_⟩
    · rw [reads hn rfl]
      exact BitVec.toNat_setWidth_of_le (by decide)
    · rw [reads hn rfl]
      exact BitVec.toNat_setWidth_of_le (by decide)
    · rw [reads hn rfl]
      exact BitVec.toNat_setWidth_of_le (by decide)
    · exact reads hn rfl
    · rw [reads hn rfl, capacity_word h hc, bufBytes_mul hc]
    · rw [reads hn rfl, bufBytes_word h, bufBytes_mul hc]
    · rw [reads hn rfl]
      exact BitVec.toNat_setWidth_of_le (by decide)
    · exact reads hn rfl
    · exact reads rfl (register_unconfigured h hc hn)
  · exact ⟨fun hle => absurd hle (Nat.not_le.2 hgt), fun _ => ⟨_, hexec, respond_answered s _, s.respond_engine _⟩⟩

end Sys2Proof.Machine
end

section
/-! PROOFS. What a step does at the port (R58, R59, R203, R233): it runs the one command the port meets, in a state that has the
engine the last command left and the inputs still to come. -/

namespace Sys2Proof.Machine

variable {s t : State} {c : Command} {op : Opcode} {i : Instr} {rest : List HostInput}

/-! ### Well-formed commands -/

/-- `PLEN(H)` of R73 read from the fields is `PLEN(H)` read from the raw header. -/
theorem payloadLength_eq_requiredLength {h : Word} (ho : headerOpc h = op.code) :
    op.payloadLength (headerArg h) = Command.requiredLength h := by
  have hopc : h.toNat % 256 = op.code.toNat := ho ▸ (headerOpc_toNat h).symm
  have harg : h.toNat / 2 ^ 32 = (headerArg h).toNat := by
    rw [headerArg_toNat]
    have := h.isLt
    omega
  unfold Command.requiredLength
  rw [hopc, harg]
  cases op <;> rfl

/-- R74 over the fields that the decoder reads. -/
theorem wellFormed_eq_fields (c : Command) : c.wellFormed =
    (decide (1 ≤ (headerOpc c.header).toNat ∧ (headerOpc c.header).toNat ≤ 9) && (headerRsvd c.header == 0#16) &&
      (headerOpc c.header == 1#8 || headerOpc c.header == 2#8 ||
        (headerWay c.header == 0#4 && headerPlvl c.header == 0#4)) &&
      (headerOpc c.header != 3#8 || headerArg c.header == 0#32) &&
      (c.payload.length == Command.requiredLength c.header)) := rfl

/-- The decoder accepts only what R74 calls well-formed. -/
theorem wellFormed_of_decode (h : decode c = .ok i) : c.wellFormed = true := by
  obtain ⟨op, hopc, hrsvd, hparams, harg, hlen, -⟩ := decode_eq_ok h
  rw [payloadLength_eq_requiredLength hopc] at hlen
  rw [wellFormed_eq_fields, hopc, hrsvd, hlen]
  cases op with
  | config | load => simp [Opcode.code]
  | clear => simp [Opcode.code, hparams rfl, harg rfl]
  | set | test | probe | digest | rdreg | rdbuf => simp [Opcode.code, hparams rfl]

/-! ### Running a command -/

theorem runCommand_of_decode (h : decode c = .ok i) : runCommand c s = exec i s := by
  rw [runCommand, h]

/-- An ill-formed command is answered and does nothing (R203). -/
theorem runCommand_of_illFormed (h : c.wellFormed = false) :
    runCommand c s = .next (s.respond (errorResponse .illegalCommand)) := by
  rw [runCommand]
  cases hd : decode c with
  | error e => exact raiseStatus_eq .illegalCommand s
  | ok i => exact absurd ((wellFormed_of_decode hd).symm.trans h) (by decide)

/-! ### A step -/

theorem step_idle_command (hp : s.port = .idle) (hi : s.inputs = .command c :: rest) :
    step s = runCommand c ((s.setInputs rest).accept c) := by
  rw [step, stepPort, hp]
  dsimp only
  rw [stepIdle, hi]

/-- A busy port goes on with its command whatever waits, but for a reset (R231, R233). -/
theorem step_busy (hp : s.port = .busy c) (hi : s.inputs.head? ≠ some .reset) : step s = runCommand c s := by
  rw [step, stepPort, hp]
  dsimp only
  rw [stepBusy]
  split
  · next rest hreset => exact absurd (hreset ▸ List.head?_cons) hi
  · rfl

/-! ### The obligations -/

/-- Settles O11: at either port the step is `runCommand`, which is the decoded command's meaning or the answer ILLEGAL_COMMAND. -/
theorem stepRunsTheDecodedCommand : Obligations.StepRunsTheDecodedCommand := by
  constructor
  · intro s c rest hp hi
    rw [step_idle_command hp hi]
    exact ⟨rfl, fun i hd => runCommand_of_decode hd, fun hill =>
      ⟨_, runCommand_of_illFormed hill, respond_answered _ _, State.respond_engine _ _⟩⟩
  · intro s c hp hi
    rw [step_busy hp hi]
    exact ⟨rfl, fun i hd => runCommand_of_decode hd, fun hill =>
      ⟨_, runCommand_of_illFormed hill, respond_answered s _, s.respond_engine _⟩⟩

/-- Settles O15: the step runs the first command on the engine alone and leaves the other inputs; the rest of the run starts from the
state it leaves. -/
theorem commandsTakeEffectInAcceptanceOrder : Obligations.CommandsTakeEffectInAcceptanceOrder := by
  intro s t c rest k hp hi hstep
  have hrun : runCommand c ((s.setInputs rest).accept c) = .next t := (step_idle_command hp hi).symm.trans hstep
  refine ⟨?_, run_succ k hstep, fun s' rest' hp' hi' he => ?_⟩
  · obtain ⟨r, -, hinputs, -⟩ := runCommand_answered hrun
    exact hinputs
  · obtain ⟨t', r, hrun', het, hr, hr'⟩ :=
      sameEngineSameCommandSameAnswer c ((s.setInputs rest).accept c) ((s'.setInputs rest').accept c) t he.symm hrun
    obtain ⟨r', -, hinputs', -⟩ := runCommand_answered hrun'
    exact ⟨t', (step_idle_command hp' hi').trans hrun', het, hinputs', by rw [hr, hr']; rfl⟩

end Sys2Proof.Machine
end

section
/-! PROOFS. Reading the buffer (R55, R57, R175): the bytes of a little-endian word, and that the commands that only read have the state
as they found it when they respond. -/

namespace Sys2Proof

/-- Byte `k` of the number that bytes spell is byte `k` of the list. -/
theorem leNat_byte (bs : List Byte) (k : Nat) : leNat bs / 2 ^ (8 * k) % 2 ^ 8 = (bs.getD k 0#8).toNat := by
  induction bs generalizing k with
  | nil => simp [leNat]
  | cons b bs ih =>
    have hb := b.isLt
    rw [leNat]
    cases k with
    | zero =>
      rw [List.getD_cons_zero]
      omega
    | succ k =>
      have hshift : (b.toNat + 256 * leNat bs) / 2 ^ (8 * (k + 1)) = leNat bs / 2 ^ (8 * k) := by
        rw [Nat.mul_succ, Nat.pow_add, Nat.mul_comm (2 ^ (8 * k)), ← Nat.div_div_eq_div_mul]
        congr 1
        omega
      rw [List.getD_cons_succ, hshift, ih]

/-- Up to eight bytes fit a word. -/
theorem leWord_toNat {bs : List Byte} (h : bs.length ≤ 8) : (leWord bs).toNat = leNat bs := by
  have hlt : leNat bs < 2 ^ 64 := (leNat_lt bs).trans_le (Nat.pow_le_pow_right (by decide) h)
  rw [leWord, BitVec.toNat_ofNat, Nat.mod_eq_of_lt hlt]

end Sys2Proof

namespace Sys2Proof.Machine

/-- Byte `k` of the word at `a` is the byte at address `a + k` (R55). -/
theorem leWord_bytes_byte (m : Memory) (a : Nat) {k : Nat} (hk : k < 8) :
    (leWord (m.bytes a 8)).toNat / 2 ^ (8 * k) % 2 ^ 8 = (m.read (a + k)).toNat := by
  rw [leWord_toNat (Memory.length_bytes m a 8).le, leNat_byte, Memory.getD_bytes m a 8 k _ hk]

/-- Settles O32: RDBUF's two answers on a configured engine, and the bytes of the word it reads. -/
theorem rdbufReadsEightBytes : Obligations.RdbufReadsEightBytes := by
  intro s index hc
  rcases execRdbuf_configured index hc with ⟨hlt, hexec⟩ | ⟨hge, hexec⟩
  · exact ⟨fun _ => ⟨_, _, hexec, respond_answered s _, s.respond_engine _, fun k hk => leWord_bytes_byte s.buf _ hk⟩,
      fun hge => absurd hlt (Nat.not_lt.2 hge)⟩
  · exact ⟨fun hlt => absurd hlt (Nat.not_lt.2 hge), fun _ => ⟨_, hexec, respond_answered s _, s.respond_engine _⟩⟩

/-- The commands that write nothing make no write (R57). -/
theorem Writes.eq_of_readsOnly {i : Instr} {s u : State} (h : Writes i s u) (hi : readsOnly i = true) : u = s := by
  cases h with
  | nothing => rfl
  | config | load | clear | setHeld | setNew => cases hi

/-- Settles O50: such a command does nothing to the state but respond, and a response is outside the engine. -/
theorem readingCommandsFrame : Obligations.ReadingCommandsFrame := by
  intro i s t hi h
  obtain ⟨u, r, rfl, hw⟩ := exec_writes h
  obtain rfl := hw.eq_of_readsOnly hi
  exact ⟨u.respond_engine r, u.respond_inputs r, fun _ => rfl⟩

end Sys2Proof.Machine
end

section
/-! PROOFS. The probed bits (R52, R137): a probe mask is one bit of a byte, so that ORing it in sets exactly that bit, and SET of a key
whose bits are all set writes nothing (R150). -/

namespace Sys2Proof.Machine

variable {s : State} {key : List Byte} {ps : List (Nat × Byte)} {m : Memory}

/-! ### One mask -/

/-- A probe mask is the one bit `b & 7` of the byte (R137). -/
theorem probeMask_eq_twoPow (b : BitVec 16) : probeMask b = BitVec.twoPow 8 (b.toNat % 8) := by
  have hlow : (b &&& 7#16).toNat = b.toNat % 8 := Nat.and_two_pow_sub_one_eq_mod b.toNat 3
  rw [probeMask, hlow, BitVec.twoPow]

theorem bitIsSet_iff (old mask : Byte) : bitIsSet old mask = true ↔ old &&& mask ≠ 0#8 := bne_iff_ne

theorem getLsbD_probeMask (b : BitVec 16) (k : Nat) : (probeMask b).getLsbD k = decide (b.toNat % 8 = k) := by
  rw [probeMask_eq_twoPow, BitVec.getLsbD_twoPow, decide_eq_true (Nat.mod_lt _ (by decide)), Bool.true_and]

theorem probeMask_ne_zero (b : BitVec 16) : probeMask b ≠ 0#8 := by
  intro h
  have hbit := getLsbD_probeMask b (b.toNat % 8)
  rw [h, BitVec.getLsbD_zero, decide_eq_true rfl] at hbit
  cases hbit

/-- The probed bit is the bit the mask names. -/
theorem bitIsSet_probeMask (old : Byte) (b : BitVec 16) : bitIsSet old (probeMask b) = old.getLsbD (b.toNat % 8) := by
  rw [bitIsSet, probeMask_eq_twoPow, BitVec.and_twoPow, ← probeMask_eq_twoPow]
  cases old.getLsbD (b.toNat % 8) with
  | true => exact bne_iff_ne.2 (probeMask_ne_zero b)
  | false => rfl

/-- ORing in a mask whose bit is already set changes nothing. -/
theorem or_probeMask_of_bitIsSet {old : Byte} {b : BitVec 16} (h : bitIsSet old (probeMask b) = true) :
    old ||| probeMask b = old := by
  rw [bitIsSet_probeMask] at h
  apply BitVec.eq_of_getLsbD_eq
  intro k _
  rw [BitVec.getLsbD_or, getLsbD_probeMask]
  by_cases hk : b.toNat % 8 = k
  · rw [← hk, h, Bool.true_or]
  · rw [decide_eq_false hk, Bool.or_false]

/-- Settles O43: the mask is bit `b & 7`, and shifts are products and quotients by powers of two. -/
theorem maskNamesTheBitOfThePage : Obligations.MaskNamesTheBitOfThePage := by
  intro s p b
  rw [bitIsSet_probeMask, probeAddress, Nat.shiftLeft_eq, Nat.shiftRight_eq_div_pow]
  rfl

/-! ### The probe loop of SET -/

/-- Every mask of a key's probes is a probe mask. -/
theorem probes_mask {p : Nat × Byte} (h : p ∈ s.probes key) : ∃ b, p.2 = probeMask b := by
  obtain ⟨j, -, -, rfl⟩ := probes_mem h
  exact ⟨_, rfl⟩

/-- The loop writes nothing where every mask is already in its byte. -/
theorem orMasks_eq_self (hm : m.wf) (h : ∀ p ∈ ps, m.read p.1 ||| p.2 = m.read p.1) : orMasks ps m = m := by
  induction ps with
  | nil => rfl
  | cons p ps ih =>
    rw [orMasks, h p List.mem_cons_self, Memory.write_read_self p.1 hm]
    exact ih fun q hq => h q (List.mem_cons_of_mem p hq)

/-- The loop then reports a hit when every probed bit is 1. -/
theorem priorHits_eq_true (hm : m.wf) (h : ∀ p ∈ ps, m.read p.1 ||| p.2 = m.read p.1)
    (hset : ∀ p ∈ ps, bitIsSet (m.read p.1) p.2 = true) : priorHits ps m true = true := by
  induction ps with
  | nil => rfl
  | cons p ps ih =>
    rw [priorHits, h p List.mem_cons_self, Memory.write_read_self p.1 hm, hitAfter, hset p List.mem_cons_self]
    exact ih (fun q hq => h q (List.mem_cons_of_mem p hq)) fun q hq => hset q (List.mem_cons_of_mem p hq)

/-- SET's loop sets every probed bit of its key (R150). -/
theorem allProbedBitsSet_setBuf_orMasks (hm : s.buf.wf) : (s.setBuf (orMasks (s.probes key) s.buf)).allProbedBitsSet key := by
  intro p (hp : p ∈ s.probes key)
  obtain ⟨b, hb⟩ := probes_mask hp
  rw [← bitIsSet_iff, hb, bitIsSet_probeMask, State.setBuf_buf, getLsbD_orMasks hm]
  exact .inr ⟨p, hp, rfl, by rw [hb, getLsbD_probeMask, decide_eq_true rfl]⟩

/-- SET of a key whose probed bits are all 1 answers 0 and writes nothing (R150). -/
theorem execSet_of_allProbedBitsSet (hm : s.buf.wf) (hc : s.cfgValid = 1#1) (hin : ∀ p ∈ s.probes key, p.1 < s.bufBytes)
    (hset : s.allProbedBitsSet key) : execSet key s = .next (s.respond ⟨.ok, 0#64, 0#64, 0#64⟩) := by
  have hbit : ∀ p ∈ s.probes key, bitIsSet (s.buf.read p.1) p.2 = true := fun p hp => (bitIsSet_iff _ _).2 (hset p hp)
  have hor : ∀ p ∈ s.probes key, s.buf.read p.1 ||| p.2 = s.buf.read p.1 := by
    intro p hp
    obtain ⟨b, hb⟩ := probes_mask hp
    have := hbit p hp
    rw [hb] at this ⊢
    exact or_probeMask_of_bitIsSet this
  rw [execSet, whenConfigured_of_configured hc, setProbes_eq hin, orMasks_eq_self hm hor, priorHits_eq_true hm hor hbit]
  rfl

/-- Settles O53: the first SET leaves all its probed bits set, in a buffer in canonical form and under the same configuration. -/
theorem repeatedSetChangesNothing : Obligations.RepeatedSetChangesNothing := by
  intro s t key hinv hc h
  suffices hexec : execSet key t = .next (t.respond ⟨.ok, 0#64, 0#64, 0#64⟩) from
    ⟨_, hexec, t.respond_engine _, respond_answered t _⟩
  rcases execSet_cases key s hc with ⟨hit, hin, -, hfirst⟩ | ⟨hfault, -⟩
  · have hwf := orMasks_wf (s.probes key) hinv.buf_wf
    have hset := allProbedBitsSet_setBuf_orMasks (key := key) hinv.buf_wf
    cases hfirst.symm.trans h
    cases hit with
    | true | false => exact execSet_of_allProbedBitsSet hwf hc hin hset
  · cases hfault.symm.trans h

end Sys2Proof.Machine
end

section
/-! PROOFS. The encoding of commands (R70 to R74): the encoder and the decoder are inverse to each other, on the instructions that fit
ARG and on the commands that R74 calls well-formed. -/

namespace Sys2Proof.Machine

open Sys2Proof.Laws.EncodedHeader (arg_length)

variable {c : Command} {op : Opcode}

/-! ### Decoding what the encoder writes -/

/-- A header put together from fields that R74 allows decodes, with a payload of the length it asks for. -/
theorem decode_mkHeader (op : Opcode) {way plvl : BitVec 4} {arg : BitVec 32} {payload : List Byte}
    (hp : op.takesParameters = false → way = 0#4 ∧ plvl = 0#4) (hc : op = .clear → arg = 0#32)
    (hl : payload.length = op.payloadLength arg) :
    decode ⟨mkHeader op way plvl arg, payload⟩ = .ok (op.instr (mkHeader op way plvl arg) payload) := by
  refine decode_of_fields (headerOpc_mkHeader op way plvl arg) (headerRsvd_mkHeader op way plvl arg) ?_ ?_ ?_
  · rwa [headerWay_mkHeader, headerPlvl_mkHeader]
  · rwa [headerArg_mkHeader]
  · rwa [headerArg_mkHeader]

/-- A key command decodes to its opcode's instruction. -/
theorem decode_keyCommand {key : List Byte} (hop : ∀ a, op.payloadLength a = a.toNat) (hc : op ≠ .clear)
    (h : key.length ≤ Config.keyBytesMax) :
    decode (keyCommand op key) = .ok (op.instr (keyCommand op key).header key) :=
  decode_mkHeader op (fun _ => ⟨rfl, rfl⟩) (absurd · hc) (by rw [hop, arg_length h])

/-- Settles O2: in each case the header's fields are read back, and LOAD's payload is cut after the count's eight bytes. -/
theorem decodeOfEncode : Obligations.DecodeOfEncode := by
  intro i h
  cases i with
  | config way plvl cnt =>
    refine (decode_mkHeader .config nofun nofun rfl).trans ?_
    rw [Opcode.instr, headerWay_mkHeader, headerPlvl_mkHeader, headerArg_mkHeader]
  | load way plvl uniq image =>
    have hlen : (leBytes 8 uniq.toNat ++ image).length = Opcode.load.payloadLength (BitVec.ofNat 32 image.length) := by
      rw [List.length_append, leBytes_length, Opcode.payloadLength, arg_length (of_decide_eq_true h)]
    refine (decode_mkHeader .load nofun nofun hlen).trans ?_
    rw [Opcode.instr, headerWay_mkHeader, headerPlvl_mkHeader, List.take_left' (leBytes_length 8 _),
      List.drop_left' (leBytes_length 8 _), leWord_leBytes]
  | clear => exact decode_mkHeader .clear (fun _ => ⟨rfl, rfl⟩) (fun _ => rfl) rfl
  | set key | test key | probe key | digest key =>
    exact decode_keyCommand (fun _ => rfl) nofun (of_decide_eq_true h)
  | rdreg n =>
    refine (decode_mkHeader .rdreg (fun _ => ⟨rfl, rfl⟩) nofun rfl).trans ?_
    rw [Opcode.instr, headerArg_mkHeader]
  | rdbuf n =>
    refine (decode_mkHeader .rdbuf (fun _ => ⟨rfl, rfl⟩) nofun rfl).trans ?_
    rw [Opcode.instr, headerArg_mkHeader]

/-! ### Encoding what the decoder reads -/

/-- The fields of a well-formed command, as the decoder checks them (R74). -/
structure LegalFields (c : Command) (op : Opcode) : Prop where
  opc : headerOpc c.header = op.code
  rsvd : headerRsvd c.header = 0#16
  parameters : op.takesParameters = false → headerWay c.header = 0#4 ∧ headerPlvl c.header = 0#4
  clearArg : op = .clear → headerArg c.header = 0#32
  length : c.payload.length = op.payloadLength (headerArg c.header)

theorem decode_of_legalFields (h : LegalFields c op) : decode c = .ok (op.instr c.header c.payload) :=
  decode_of_fields h.opc h.rsvd h.parameters h.clearArg h.length

theorem legalFields_of_decode {i : Instr} (h : decode c = .ok i) :
    ∃ op, LegalFields c op ∧ i = op.instr c.header c.payload := by
  obtain ⟨op, hopc, hrsvd, hparams, harg, hlen, hi⟩ := decode_eq_ok h
  exact ⟨op, ⟨hopc, hrsvd, hparams, harg, hlen⟩, hi⟩

/-- CONFIG and LOAD, the opcodes 0x01 and 0x02, take WAY and PLVL (R73). -/
theorem code_of_takesParameters_false (h : op.takesParameters = false) : op.code ≠ 1#8 ∧ op.code ≠ 2#8 := by
  revert h
  cases op <;> decide

/-- R74 gives the fields as the decoder checks them. -/
theorem legalFields_of_wellFormed (h : c.wellFormed = true) : ∃ op, LegalFields c op := by
  rw [wellFormed_eq_fields] at h
  simp only [Bool.and_eq_true, Bool.or_eq_true, decide_eq_true_eq, beq_iff_eq, bne_iff_ne] at h
  obtain ⟨⟨⟨⟨hrange, hrsvd⟩, hparams⟩, harg⟩, hlen⟩ := h
  obtain ⟨op, hop⟩ := Option.isSome_iff_exists.1 ((Opcode.ofCode_isSome_iff _).2 hrange)
  have hopc := (Opcode.code_of_ofCode hop).symm
  rw [← payloadLength_eq_requiredLength hopc] at hlen
  rw [hopc] at hparams harg
  refine ⟨op, hopc, hrsvd, fun ht => ?_, fun hc => ?_, hlen⟩
  · obtain ⟨hconfig, hload⟩ := code_of_takesParameters_false ht
    exact hparams.resolve_left (Or.rec hconfig hload)
  · subst hc
    exact harg.resolve_left (not_not.2 rfl)

/-- A key command is put together again from its header and its key. -/
theorem keyCommand_of_legalFields (h : LegalFields c op) (ht : op.takesParameters = false) (hop : ∀ a, op.payloadLength a = a.toNat) :
    keyCommand op c.payload = c := by
  obtain ⟨hway, hplvl⟩ := h.parameters ht
  have hlen := h.length
  have hmk := mkHeader_fields h.opc h.rsvd
  rw [hway, hplvl] at hmk
  rw [keyCommand, hlen, hop, BitVec.ofNat_toNat, BitVec.setWidth_eq, hmk]

/-- The encoder puts a well-formed command together again. -/
theorem encode_instr (h : LegalFields c op) : encode (op.instr c.header c.payload) = c := by
  have hmk := mkHeader_fields h.opc h.rsvd
  have hlen := h.length
  cases op with
  | config =>
    rw [Opcode.instr, encode, hmk, ← List.eq_nil_of_length_eq_zero hlen]
  | load =>
    rw [Opcode.payloadLength] at hlen
    have hcount : (c.payload.take 8).length = 8 := List.length_take_of_le (by omega)
    have himage : (c.payload.drop 8).length = (headerArg c.header).toNat := by
      rw [List.length_drop, hlen, Nat.add_sub_cancel_left]
    rw [Opcode.instr, encode, himage, BitVec.ofNat_toNat, BitVec.setWidth_eq, hmk, leBytes_leWord hcount, List.take_append_drop]
  | set | test | probe | digest => exact keyCommand_of_legalFields h rfl fun _ => rfl
  | clear =>
    obtain ⟨hway, hplvl⟩ := h.parameters rfl
    rw [hway, hplvl, h.clearArg rfl] at hmk
    rw [Opcode.instr, encode, hmk, ← List.eq_nil_of_length_eq_zero hlen]
  | rdreg | rdbuf =>
    obtain ⟨hway, hplvl⟩ := h.parameters rfl
    rw [hway, hplvl] at hmk
    rw [Opcode.instr, encode, hmk, ← List.eq_nil_of_length_eq_zero hlen]

/-- The instruction of a well-formed command has an encoding: a key or image has as many bytes as the 32-bit ARG says. -/
theorem wellFormed_instr (h : LegalFields c op) : (op.instr c.header c.payload).wellFormed = true := by
  have hlen := h.length
  have harg : (headerArg c.header).toNat ≤ Config.keyBytesMax := Nat.le_pred_of_lt (headerArg c.header).isLt
  cases op with
  | config | clear | rdreg | rdbuf => rfl
  | set | test | probe | digest => exact decide_eq_true (hlen.trans_le harg)
  | load =>
    refine decide_eq_true (le_of_eq_of_le ?_ harg)
    rw [List.length_drop, hlen, Opcode.payloadLength, Nat.add_sub_cancel_left]

/-- Settles O3: a command that decodes has the fields of R74, which the encoder writes again. -/
theorem encodeOfDecode : Obligations.EncodeOfDecode := by
  intro c i h
  obtain ⟨op, hfields, rfl⟩ := legalFields_of_decode h
  exact ⟨encode_instr hfields, wellFormed_instr hfields⟩

/-- Settles O4: R74 over slices of the header and the decoder's checks allow the same fields. -/
theorem decoderAcceptsExactlyWellFormed : Obligations.DecoderAcceptsExactlyWellFormed := by
  intro c
  constructor
  · rintro ⟨i, h⟩
    exact wellFormed_of_decode h
  · intro h
    obtain ⟨op, hfields⟩ := legalFields_of_wellFormed h
    exact ⟨_, decode_of_legalFields hfields⟩

/-- What the encoder writes is well-formed. -/
theorem wellFormed_encode {i : Instr} (h : i.wellFormed = true) : (encode i).wellFormed = true :=
  wellFormed_of_decode (decodeOfEncode i h)

/-! ### Commands and responses as bytes -/

/-- A header followed by enough bytes is cut off a byte stream with its payload (R76). -/
theorem parseCommand_bytes (h : LegalFields c op) (rest : List Byte) : parseCommand (c.bytes ++ rest) = .ok (c, rest) := by
  have hheader : (leBytes 8 c.header.toNat).length = 8 := leBytes_length 8 _
  have hbytes : c.bytes ++ rest = leBytes 8 c.header.toNat ++ (c.payload ++ rest) := List.append_assoc ..
  have hlong : ¬ (leBytes 8 c.header.toNat ++ (c.payload ++ rest)).length < 8 := by
    rw [List.length_append, hheader]
    omega
  have hpayload : ¬ (c.payload ++ rest).length < c.payload.length := by
    rw [List.length_append]
    omega
  rw [parseCommand, hbytes, if_neg hlong, List.take_left' hheader, List.drop_left' hheader, leWord_leBytes]
  dsimp only
  rw [h.opc, Opcode.ofCode_code]
  dsimp only
  rw [← h.length, if_neg hpayload, List.take_left, List.drop_left]

/-- Settles O5: the header's eight bytes tell the length of the payload that follows them. -/
theorem byteStreamRoundTrip : Obligations.ByteStreamRoundTrip := by
  intro c rest h
  obtain ⟨op, hfields⟩ := legalFields_of_wellFormed h
  have hheader : (leBytes 8 c.header.toNat).length = 8 := leBytes_length 8 _
  exact ⟨List.take_left' hheader, List.drop_left' hheader, parseCommand_bytes hfields rest⟩

/-- The three words of a response stand in its last 24 bytes (R77). -/
theorem Response.drop_bytes (r : Response) :
    r.bytes.drop 8 = leBytes 8 r.res0.toNat ++ (leBytes 8 r.res1.toNat ++ leBytes 8 r.res2.toNat) := by
  rw [Response.bytes, List.append_assoc, List.append_assoc]
  rfl

/-- Settles O6: the words are bytes 8 to 15, 16 to 23 and 24 to 31, each read back from its eight bytes. -/
theorem responseBytesLayout : Obligations.ResponseBytesLayout := by
  refine ⟨fun r => ?_, rfl, rfl, rfl, rfl, rfl, rfl⟩
  have hlen : ∀ v, (leBytes 8 v).length = 8 := leBytes_length 8
  have hdrop16 : r.bytes.drop 16 = leBytes 8 r.res1.toNat ++ leBytes 8 r.res2.toNat := by
    rw [← List.drop_drop (i := 8) (j := 8), r.drop_bytes, List.drop_left' (hlen _)]
  have hdrop24 : r.bytes.drop 24 = leBytes 8 r.res2.toNat := by
    rw [← List.drop_drop (i := 8) (j := 16), hdrop16, List.drop_left' (hlen _)]
  refine ⟨rfl, rfl, rfl, ?_, ?_, ?_⟩
  · rw [r.drop_bytes, List.take_left' (hlen _), leWord_leBytes]
  · rw [hdrop16, List.take_left' (hlen _), leWord_leBytes]
  · rw [hdrop24, List.take_of_length_le (hlen _).le, leWord_leBytes]

/-- Settles O1: on each of the nine headers the decoder computes the command. -/
theorem writtenOutWordsDecode : Obligations.WrittenOutWordsDecode :=
  ⟨rfl, rfl, rfl, rfl, rfl, rfl, rfl, rfl, rfl⟩

end Sys2Proof.Machine
end

section
/-! PROOFS. The assembler (R79): every line it accepts writes a well-formed command, and the command that each form of line writes. -/

namespace Sys2Proof.Machine

/-- A line that assembles writes the encoding of an instruction that has one. -/
theorem assembleLine_eq_some {line : List Char} {c : Command} (h : assembleLine line = some c) :
    ∃ i : Instr, i.wellFormed = true ∧ c = encode i := by
  unfold assembleLine at h
  dsimp only at h
  split at h
  · cases h
  · next i _ =>
    split at h
    · next hwf => exact ⟨i, hwf, (Option.some.inj h).symm⟩
    · cases h

/-- Settles O7: the line's instruction has an encoding, and what the encoder writes is well-formed. -/
theorem assembledLinesAreWellFormed : Obligations.AssembledLinesAreWellFormed := by
  intro line c h
  obtain ⟨i, hwf, rfl⟩ := assembleLine_eq_some h
  exact wellFormed_encode hwf

/-! ### The command each line writes -/

/-- The header of numbers that fit their fields. -/
theorem mkHeader_ofNat (op : Opcode) {way plvl arg : Nat} (hw : way < 16) (hl : plvl < 16) (ha : arg < 2 ^ 32) :
    mkHeader op (BitVec.ofNat 4 way) (BitVec.ofNat 4 plvl) (BitVec.ofNat 32 arg) =
      BitVec.ofNat 64 (op.code.toNat + way * 2 ^ 8 + plvl * 2 ^ 12 + arg * 2 ^ 32) := by
  rw [mkHeader_eq_ofNat, BitVec.toNat_ofNat, BitVec.toNat_ofNat, BitVec.toNat_ofNat, Nat.mod_eq_of_lt hw, Nat.mod_eq_of_lt hl,
    Nat.mod_eq_of_lt ha]

section
variable {m : String} (hne : m.toList ≠ []) (hm : m.toList.all (fun c => !isBlank c) = true) {op : Opcode}
include hne hm

/-- A line whose mnemonic and operands read as an instruction that has an encoding writes that encoding. -/
theorem assembleLine_of_parseInstr {o : List Char} {os : List (List Char)} {i : Instr} (ho : ∀ x ∈ o :: os, IsOperand x)
    (hi : parseInstr m.toList (o :: os) = some i) (hwf : i.wellFormed = true) :
    assembleLine (lineText m (o :: os)) = some (encode i) :=
  assembleLine_operands hne (fun c hc => by simpa using List.all_eq_true.1 hm c hc) (ho o List.mem_cons_self)
    (fun x hx => ho x (List.mem_cons_of_mem o hx)) hi hwf

/-- The line of a key command: the header's ARG is the key's length, the payload the key. -/
theorem assembleLine_key {instr : List Byte → Instr} (hparse : ∀ x, parseInstr m.toList [x] = (parseKey x).map instr)
    (hwf : ∀ key, (instr key).wellFormed = decide (key.length ≤ Config.keyBytesMax))
    (hencode : ∀ key, encode (instr key) = keyCommand op key) {k : KeyText} (hk : k.Legal) (hlen : k.bytes.length < 2 ^ 32) :
    assembleLine (lineText m [k.text]) = some ⟨BitVec.ofNat 64 (op.code.toNat + k.bytes.length * 2 ^ 32), k.bytes⟩ := by
  have hi : parseInstr m.toList [k.text] = some (instr k.bytes) := by
    rw [hparse, parseKey_text hk, Option.map_some]
  have hfits : (instr k.bytes).wellFormed = true := (hwf _).trans (decide_eq_true (Nat.le_pred_of_lt hlen))
  rw [assembleLine_of_parseInstr hne hm (List.forall_mem_singleton.2 (.key hk)) hi hfits, hencode, keyCommand, mkHeader_arg op hlen]

/-- The line of a command whose one operand is ARG. -/
theorem assembleLine_arg {instr : BitVec 32 → Instr} (hwf : ∀ a, (instr a).wellFormed = true)
    (hencode : ∀ a, encode (instr a) = ⟨mkHeader op 0#4 0#4 a, []⟩) {x : List Char} {n : Nat} (hx : IsOperand x)
    (hi : parseInstr m.toList [x] = some (instr (BitVec.ofNat 32 n))) (hn : n < 2 ^ 32) :
    assembleLine (lineText m [x]) = some ⟨BitVec.ofNat 64 (op.code.toNat + n * 2 ^ 32), []⟩ := by
  rw [assembleLine_of_parseInstr hne hm (List.forall_mem_singleton.2 hx) hi (hwf _), hencode, mkHeader_arg op hn]

end

theorem assembleLine_config {w l n : NumberText} (hw : w.value < 16) (hl : l.value < 16) (hn : n.value < 2 ^ 32) :
    assembleLine (lineText "CONFIG" [w.text, l.text, n.text]) =
      some ⟨BitVec.ofNat 64 (0x01 + w.value * 2 ^ 8 + l.value * 2 ^ 12 + n.value * 2 ^ 32), []⟩ := by
  have hi : parseInstr "CONFIG".toList [w.text, l.text, n.text] =
      some (.config (BitVec.ofNat 4 w.value) (BitVec.ofNat 4 l.value) (BitVec.ofNat 32 n.value)) := by
    rw [parseInstr, if_pos rfl, parseBelow_text w hw, parseBelow_text l hl, parseBelow_text n hn]
  rw [assembleLine_of_parseInstr (by decide) (by decide) (by simp [IsOperand.number]) hi rfl, encode, mkHeader_ofNat .config hw hl hn]
  rfl

theorem assembleLine_load {w l u : NumberText} {b : KeyText} (hw : w.value < 16) (hl : l.value < 16) (hu : u.value < 2 ^ 64)
    (hb : b.Legal) (hlen : b.bytes.length < 2 ^ 32) :
    assembleLine (lineText "LOAD" [w.text, l.text, u.text, b.text]) =
      some ⟨BitVec.ofNat 64 (0x02 + w.value * 2 ^ 8 + l.value * 2 ^ 12 + b.bytes.length * 2 ^ 32), leBytes 8 u.value ++ b.bytes⟩ := by
  have hi : parseInstr "LOAD".toList [w.text, l.text, u.text, b.text] =
      some (.load (BitVec.ofNat 4 w.value) (BitVec.ofNat 4 l.value) (BitVec.ofNat 64 u.value) b.bytes) := by
    rw [parseInstr, if_neg (by decide), if_pos rfl, parseBelow_text w hw, parseBelow_text l hl, parseBelow_text u hu, parseKey_text hb]
  rw [assembleLine_of_parseInstr (by decide) (by decide) (by simp [IsOperand.number, IsOperand.key hb]) hi
    (decide_eq_true (Nat.le_pred_of_lt hlen)), encode, mkHeader_ofNat .load hw hl hlen, BitVec.toNat_ofNat,
    Nat.mod_eq_of_lt hu]
  rfl

theorem assembleLine_rdreg {x : List Char} {n : Nat} (hx : IsOperand x) (hr : parseRegister x = some n) (hn : n < 2 ^ 32) :
    assembleLine (lineText "RDREG" [x]) = some ⟨BitVec.ofNat 64 (0x08 + n * 2 ^ 32), []⟩ := by
  have hparse : ∀ x, parseInstr "RDREG".toList [x] = (parseRegister x).map fun n => .rdreg (BitVec.ofNat 32 n) := fun _ => rfl
  exact assembleLine_arg (op := .rdreg) (by decide) (by decide) (fun _ => rfl) (fun _ => rfl) hx (by rw [hparse, hr, Option.map_some]) hn

theorem assembleLine_rdbuf {n : NumberText} (hn : n.value < 2 ^ 32) :
    assembleLine (lineText "RDBUF" [n.text]) = some ⟨BitVec.ofNat 64 (0x09 + n.value * 2 ^ 32), []⟩ := by
  have hparse : ∀ x, parseInstr "RDBUF".toList [x] = (parseBelow (2 ^ 32) x).map fun n => .rdbuf (BitVec.ofNat 32 n) := fun _ => rfl
  exact assembleLine_arg (op := .rdbuf) (by decide) (by decide) (fun _ => rfl) (fun _ => rfl) (.number n)
    (by rw [hparse, parseBelow_text n hn, Option.map_some]) hn

/-- RDREG takes each name of R35 for its number. -/
theorem assembleLine_registerName {name : List Char} {n : Nat} (h : (name, n) ∈ registerNames) :
    assembleLine (lineText "RDREG" [name]) = some ⟨BitVec.ofNat 64 (0x08 + n * 2 ^ 32), []⟩ := by
  have hnames : ∀ p ∈ registerNames, p.1 ≠ [] ∧ p.1.all isPlain = true ∧ parseRegister p.1 = some p.2 ∧ p.2 < 2 ^ 32 := by
    decide
  obtain ⟨hne, hplain, hr, hn⟩ := hnames _ h
  exact assembleLine_rdreg (.of_plain hne (List.all_eq_true.1 hplain)) hr hn

/-- Settles O55: each operand's text is read back as its value, and the header holds the values in their fields. -/
theorem assembledLinesWriteTheirCommands : Obligations.AssembledLinesWriteTheirCommands := by
  have hname : ∀ p ∈ registerNames, assembleLine (lineText "RDREG" [p.1]) = some ⟨BitVec.ofNat 64 (0x08 + p.2 * 2 ^ 32), []⟩ :=
    fun _ hp => assembleLine_registerName hp
  refine ⟨fun w l n => assembleLine_config, fun w l u b => assembleLine_load, by decide, fun k hk hlen => ⟨?_, ?_, ?_, ?_⟩,
    fun n hn => ⟨assembleLine_rdreg (.number n) (parseRegister_text n hn) hn, assembleLine_rdbuf hn⟩, ?_⟩
  · exact assembleLine_key (op := .set) (by decide) (by decide) (fun _ => rfl) (fun _ => rfl) (fun _ => rfl) hk hlen
  · exact assembleLine_key (op := .test) (by decide) (by decide) (fun _ => rfl) (fun _ => rfl) (fun _ => rfl) hk hlen
  · exact assembleLine_key (op := .probe) (by decide) (by decide) (fun _ => rfl) (fun _ => rfl) (fun _ => rfl) hk hlen
  · exact assembleLine_key (op := .digest) (by decide) (by decide) (fun _ => rfl) (fun _ => rfl) (fun _ => rfl) hk hlen
  · simpa [registerNames] using hname

end Sys2Proof.Machine
end

section
/-! PROOFS. Every command completes (R77, R137, R233): under the invariant each probe of a key lies inside the buffer, so no command
faults, and a run over a list of commands answers each of them. -/

namespace Sys2Proof.Machine

variable {s t : State} {c : Command}

/-! ### A probe lies inside the buffer -/

theorem pageIndex_lt (h : s.Inv) (hc : s.cfgValid = 1#1) (V : BitVec 128) : s.pageIndex V < s.pageCount.toNat :=
  Nat.mod_lt _ (h.count_range hc).1

/-- A bit position names a byte of a page (R135, R136). -/
theorem bitPosition_div_lt (h : s.Inv) (hc : s.cfgValid = 1#1) (V : BitVec 128) (j : Nat) :
    (s.bitPosition V j).toNat / 2 ^ 3 < 2 ^ s.pageLevel.toNat := by
  rw [bitPosition_toNat s V j (h.level_range hc).2, Nat.div_lt_iff_lt_mul (Nat.two_pow_pos 3), ← Nat.pow_add]
  exact Nat.mod_lt _ (Nat.two_pow_pos _)

/-- The byte at offset `b` of page `i` lies before the end of the pages (R50, R137). -/
theorem page_byte_lt {i n b size : Nat} (hi : i < n) (hb : b < size) : i * size + b < n * size :=
  calc i * size + b < i * size + size := Nat.add_lt_add_left hb _
    _ = (i + 1) * size := (Nat.succ_mul i size).symm
    _ ≤ n * size := Nat.mul_le_mul_right size hi

/-- Every probe's address exists (R50, R137). -/
theorem probes_inside (h : s.Inv) (hc : s.cfgValid = 1#1) (key : List Byte) : ∀ p ∈ s.probes key, p.1 < s.bufBytes := by
  intro p hp
  obtain ⟨j, -, -, rfl⟩ := probes_mem hp
  rw [bufBytes_mul hc, probeAddress, State.pageOffset, Nat.shiftLeft_eq, Nat.shiftRight_eq_div_pow]
  exact page_byte_lt (pageIndex_lt h hc _) (bitPosition_div_lt h hc _ j)

/-! ### Every command completes -/

theorem whenConfigured_next {k : Result} (hk : s.cfgValid = 1#1 → ∃ t, k = .next t) : ∃ t, whenConfigured s k = .next t := by
  rcases s.cfgValid_cases with hc | hc
  · exact ⟨_, whenConfigured_of_unconfigured hc⟩
  · rw [whenConfigured_of_configured hc]
    exact hk hc

/-- Under the invariant every instruction answers. -/
theorem exec_completes (h : s.Inv) (i : Instr) : ∃ t, exec i s = .next t := by
  cases i with
  | config way lvl cnt =>
    rcases execConfig_cases way lvl cnt s with ⟨e, -, he⟩ | ⟨-, he⟩ <;> exact ⟨_, he⟩
  | load way lvl uniq image =>
    rcases execLoad_cases way lvl uniq image s with ⟨e, -, he⟩ | ⟨-, he⟩ <;> exact ⟨_, he⟩
  | rdreg reg =>
    rcases execRdreg_cases reg s with ⟨-, v, -, he⟩ | ⟨-, he⟩ <;> exact ⟨_, he⟩
  | digest key => exact ⟨_, rfl⟩
  | clear | probe key => exact whenConfigured_next fun _ => ⟨_, rfl⟩
  | set key =>
    refine whenConfigured_next fun hc => ?_
    rw [setProbes_eq (probes_inside h hc key)]
    dsimp only
    split <;> exact ⟨_, rfl⟩
  | test key =>
    refine whenConfigured_next fun hc => ?_
    rw [testProbes_eq (probes_inside h hc key)]
    exact ⟨_, rfl⟩
  | rdbuf index =>
    rcases s.cfgValid_cases with hc | hc
    · exact ⟨_, whenConfigured_of_unconfigured hc⟩
    · rcases execRdbuf_configured index hc with ⟨-, he⟩ | ⟨-, he⟩ <;> exact ⟨_, he⟩

/-- Under the invariant every command, well-formed or not, gets its response. -/
theorem runCommand_completes (h : s.Inv) (c : Command) : ∃ t, runCommand c s = .next t := by
  cases hwf : c.wellFormed with
  | false => exact ⟨_, runCommand_of_illFormed hwf⟩
  | true =>
    obtain ⟨i, hd⟩ := (decoderAcceptsExactlyWellFormed c).2 hwf
    rw [runCommand_of_decode hd]
    exact exec_completes h i

/-- One command presented to an idle port: one step takes it off the inputs, answers it once and leaves the port idle (R77, R233). -/
theorem step_answers_command {rest : List HostInput} (h : s.Inv) (hp : s.port = .idle) (hi : s.inputs = .command c :: rest) :
    ∃ t r, step s = .next t ∧ t.Inv ∧ t.port = .idle ∧ t.inputs = rest ∧ t.responses = r :: s.responses := by
  have hstep := step_idle_command hp hi
  have haccepted : ((s.setInputs rest).accept c).Inv := inv_engine (s := s) rfl h
  obtain ⟨t, ht⟩ := runCommand_completes haccepted c
  obtain ⟨r, hidle, hinputs, hresponses, -⟩ := runCommand_answered ht
  exact ⟨t, r, hstep.trans ht, runCommand_inv ht haccepted, hidle, hinputs, hresponses⟩

/-- Settles O14, by induction on the commands: the first step answers the first command and leaves a state of the same kind, with the
other commands waiting. -/
theorem everyCommandGetsOneResponse : Obligations.EveryCommandGetsOneResponse := by
  intro cs
  induction cs with
  | nil =>
    intro s _ hp hi
    exact ⟨s, rfl, hi, hp, [], rfl, rfl⟩
  | cons c cs ih =>
    intro s h hp hi
    obtain ⟨u, r, hstep, hinv, hidle, hinputs, hresponses⟩ := step_answers_command h hp hi
    obtain ⟨t, hrun, hnone, hport, new, hnew, hlength⟩ := ih u hinv hidle hinputs
    refine ⟨t, (run_succ cs.length hstep).trans hrun, hnone, hport, new ++ [r], ?_, ?_⟩
    · rw [hnew, hresponses, List.append_assoc, List.singleton_append]
    · rw [List.length_append, hlength, List.length_singleton, List.length_cons]

end Sys2Proof.Machine
end

section
/-! PROOFS. Mix and End as the steps of their tables (R103, R104): one step of each as what it writes on the lanes, with the model's own
rotation. -/

namespace Sys2Proof.Machine

/-- A step of Mix writes the rotated lane and the lane two places on. -/
theorem mixStep_eq_setLane (l : Lanes) (x : LaneName) {k : Nat} (hk : k < 64) :
    mixStep l (x, k) = (l.setLane x (rotl64 (l.lane x) k + l.lane x.next)).setLane x.next.next
      (l.lane x.next.next ^^^ (rotl64 (l.lane x) k + l.lane x.next)) := by
  rw [rotl64_eq_rotateLeft _ hk]
  cases x <;> rfl

/-- A step of End writes the rotated lane and the lane after it. -/
theorem endStep_eq_setLane (l : Lanes) (x : LaneName) {k : Nat} (hk : k < 64) :
    endStep l (x, k) = (l.setLane x (rotl64 (l.lane x) k)).setLane x.next
      ((l.lane x.next ^^^ l.lane x) + rotl64 (l.lane x) k) := by
  rw [rotl64_eq_rotateLeft _ hk]
  cases x <;> rfl

theorem mix_eq_foldl (l : Lanes) : mix l = mixSteps.foldl mixStep l := by
  simp (disch := decide) only [mixSteps, List.foldl_cons, List.foldl_nil, mixStep_eq_setLane, LaneName.next, Lanes.lane, Lanes.setLane]
  rfl

theorem finalise_eq_foldl (l : Lanes) : finalise l = endSteps.foldl endStep l := by
  simp (disch := decide) only [endSteps, List.foldl_cons, List.foldl_nil, endStep_eq_setLane, LaneName.next, Lanes.lane, Lanes.setLane]
  rfl

/-- Settles O34: step by step the tables write what the model's straight-line code writes. -/
theorem mixAndEndFollowTheirTables : Obligations.MixAndEndFollowTheirTables := ⟨mix_eq_foldl, finalise_eq_foldl⟩

end Sys2Proof.Machine
end

section
/-! PROOFS. The digest of a whole key (R105 to R110): the tail rule as sums of bytes, the key consumed as a stream, short keys, and
the DIGEST command. -/

namespace Sys2Proof

/-- The number that bytes spell is the sum of the bytes at their places (R13). -/
theorem leNat_eq_sum (bs : List Byte) :
    leNat bs = ((List.range bs.length).map fun t => (bs.getD t 0#8).toNat * 2 ^ (8 * t)).sum := by
  induction bs with
  | nil => rfl
  | cons b bs ih =>
    have hshift (t : Nat) : (bs.getD t 0#8).toNat * 2 ^ (8 * (t + 1)) = 256 * ((bs.getD t 0#8).toNat * 2 ^ (8 * t)) := by ring
    rw [leNat, ih, ← List.sum_map_mul_left, List.length_cons, List.range_succ_eq_map, List.map_cons, List.sum_cons, List.map_map]
    simp only [Function.comp_def, List.getD_cons_zero, List.getD_cons_succ, hshift, Nat.mul_zero, Nat.pow_zero, Nat.mul_one]

/-- The word that up to the first eight bytes spell, as a sum over the list they are taken from. -/
theorem leWord_take_toNat (T : List Byte) :
    (leWord (T.take 8)).toNat = ((List.range (min T.length 8)).map fun t => (T.getD t 0#8).toNat * 2 ^ (8 * t)).sum := by
  rw [leWord_toNat (List.length_take_le 8 T), leNat_eq_sum, List.length_take, Nat.min_comm]
  congr 1
  refine List.map_congr_left fun t ht => ?_
  have ht : t < 8 := by have := List.mem_range.1 ht; omega
  rw [List.getD_eq_getElem?_getD, List.getD_eq_getElem?_getD, List.getElem?_take_of_lt ht]

/-- The word that up to eight bytes behind the first eight spell, as a sum over the list they are dropped from. -/
theorem leWord_drop_toNat {T : List Byte} (h : T.length ≤ 16) :
    (leWord (T.drop 8)).toNat =
      ((List.range (T.length - 8)).map fun t => (T.getD (8 + t) 0#8).toNat * 2 ^ (8 * t)).sum := by
  have hlen : (T.drop 8).length ≤ 8 := by rw [List.length_drop]; omega
  rw [leWord_toNat hlen, leNat_eq_sum, List.length_drop]
  simp only [List.getD_eq_getElem?_getD, List.getElem?_drop]

end Sys2Proof

namespace Sys2Proof.Machine

/-! ### The tail -/

/-- Shifted to the top byte, the key's length counts modulo 256 (R107). -/
theorem lengthTerm_toNat (L : Nat) : (BitVec.ofNat 64 L <<< 56).toNat = L % 256 * 2 ^ 56 := by
  rw [BitVec.toNat_shiftLeft, BitVec.toNat_ofNat, Nat.shiftLeft_eq]
  omega

/-- A lane after the length term and one more word, as a number. -/
theorem addLengthTerm_toNat (d w : Word) (L : Nat) :
    (d + (BitVec.ofNat 64 L <<< 56) + w).toNat = (d.toNat + L % 256 * 2 ^ 56 + w.toNat) % 2 ^ 64 := by
  rw [BitVec.toNat_add, BitVec.toNat_add, lengthTerm_toNat, Nat.mod_add_mod]

/-- Settles O36: with no byte left M goes to both lanes; otherwise each lane gains the word its bytes spell. -/
theorem tailBytesAddAtTheirPlaces : Obligations.TailBytesAddAtTheirPlaces := by
  intro L T l hT
  by_cases h : T.length = 0
  · rw [foldTail_nil L T l h, if_pos h, if_pos h]
    exact ⟨rfl, rfl, BitVec.toNat_add .., addLengthTerm_toNat ..⟩
  · rw [foldTail_pos L T l h, if_neg h, if_neg h, ← leWord_take_toNat, ← leWord_drop_toNat (hT.trans (by decide))]
    exact ⟨rfl, rfl, BitVec.toNat_add .., addLengthTerm_toNat ..⟩

/-! ### The key from an offset on -/

/-- What is left to do when the full blocks before `p` are consumed: the residual half block, if 16 bytes remain, and the tail
(R106, R107). -/
def absorbRest (K : List Byte) (p : Nat) (l : Lanes) : Lanes :=
  if 16 ≤ K.length - p then foldTail K.length (K.drop (p + 16)) (absorbHalf K p l)
  else foldTail K.length (K.drop p) l

theorem absorb_eq_absorbRest (K : List Byte) :
    absorb K = absorbRest K (32 * (K.length / 32)) (absorbBlocks K (K.length / 32) 0 Lanes.start) := by
  rw [absorb_eq, Nat.mod_eq_sub, absorbRest]

/-- A key shorter than a block has no full block. -/
theorem absorb_of_length_lt {K : List Byte} (h : K.length < 32) : absorb K = absorbRest K 0 Lanes.start := by
  rw [absorb_eq_absorbRest, Nat.div_eq_of_lt h]
  rfl

/-! ### The key as a stream -/

theorem streamBlock_drop (K : List Byte) (p : Nat) (l : Lanes) : streamBlock (K.drop p) l = absorbBlock K p l :=
  absorbBlock_drop K p 0 l

/-- While a block is left, the stream consumes it. -/
theorem streamAbsorb_block {L fuel : Nat} {K : List Byte} (l : Lanes) (h : 32 ≤ K.length) :
    streamAbsorb L (fuel + 1) K l = streamAbsorb L fuel (K.drop 32) (streamBlock K l) := by
  rw [streamAbsorb, if_pos h]

/-- With less than a block left, the stream does what is left to do at that offset. -/
theorem streamAbsorb_rest {K : List Byte} {p : Nat} (fuel : Nat) (l : Lanes) (h : K.length < p + 32) :
    streamAbsorb K.length (fuel + 1) (K.drop p) l = absorbRest K p l := by
  have hlen : ¬ 32 ≤ (K.drop p).length := by rw [List.length_drop]; omega
  have hhalf : absorbHalf (K.drop p) 0 l = absorbHalf K p l := absorbHalf_drop K p 0 l
  rw [streamAbsorb, if_neg hlen, absorbRest, List.length_drop, List.drop_drop, ← hhalf]
  rfl

/-- From any offset `n` full blocks before the rest, the stream consumes those blocks and then the rest. -/
theorem streamAbsorb_drop {K : List Byte} {n p : Nat} (l : Lanes) (hle : p + 32 * n ≤ K.length) (hlt : K.length < p + 32 * n + 32) :
    streamAbsorb K.length (n + 1) (K.drop p) l = absorbRest K (p + 32 * n) (absorbBlocks K n p l) := by
  induction n generalizing p l with
  | zero => exact streamAbsorb_rest 0 l hlt
  | succ n ih =>
    have hblock : 32 ≤ (K.drop p).length := by rw [List.length_drop]; omega
    have hnext : p + 32 * (n + 1) = p + 32 + 32 * n := by omega
    rw [hnext] at hle hlt ⊢
    rw [streamAbsorb_block l hblock, List.drop_drop, streamBlock_drop, ih _ hle hlt, absorbBlocks]

/-- Settles O37: the stream from offset 0 on has `K.length / 32` full blocks; a full block is as R105 writes it by definition. -/
theorem digestConsumesKeyAsStream : Obligations.DigestConsumesKeyAsStream := by
  refine ⟨fun K => ?_, fun K p l => rfl⟩
  have hstream := streamAbsorb_drop (K := K) (n := K.length / 32) (p := 0) Lanes.start (by omega) (by omega)
  rw [Nat.zero_add, ← absorb_eq_absorbRest] at hstream
  exact hstream.symm

/-- Settles O38: below 32 bytes only the rest is left, and it mixes only when it holds 16 bytes. -/
theorem shortKeysUseAtMostOneRound : Obligations.ShortKeysUseAtMostOneRound := by
  refine fun K => ⟨fun hlt => ?_, fun hge hlt => ?_⟩
  · exact (absorb_of_length_lt (hlt.trans (by decide))).trans (if_neg (Nat.not_le.2 hlt))
  · exact (absorb_of_length_lt hlt).trans (if_pos hge)

/-! ### The DIGEST command -/

/-- DIGEST only responds, in every state (R110). -/
theorem exec_digest (key : List Byte) (s : State) :
    exec (.digest key) s = .next (s.respond ⟨.ok, (digest key).1, (digest key).2, 0#64⟩) := rfl

/-- Settles O39: DIGEST only responds, and a response is outside the engine; the digest and M are so defined. -/
theorem digestCommandAnswersDigest : Obligations.DigestCommandAnswersDigest :=
  ⟨fun s key => ⟨_, exec_digest key s, respond_answered s _, s.respond_engine _⟩, fun _ => ⟨rfl, rfl⟩, rfl⟩

end Sys2Proof.Machine
end

section
/-! PROOFS. Page and probes of a key (R130 to R139): the selector and the codes are fields of the digest's two words, every probe lies in
the page the selector picks, and PROBE answers that page's offset and the eight positions. -/

namespace Sys2Proof.Machine

variable {s : State} {key : List Byte}

/-! ### Fields of the digest -/

theorem digestValue_toNat (key : List Byte) :
    (digestValue key).toNat = (digest key).2.toNat * 2 ^ 64 + (digest key).1.toNat :=
  toNat_append_eq _ _

/-- A lane below bit 64 is a field of the low word (R130). -/
theorem selectorLane_low (key : List Byte) {i : Nat} (h : 32 * i + 32 ≤ 64) :
    selectorLane (digestValue key) i = ((digest key).1 >>> (32 * i)).setWidth 32 := by
  rw [selectorLane, digestValue, BitVec.extractLsb'_append_eq_of_add_le h, BitVec.setWidth_ushiftRight_eq_extractLsb]

/-- A lane from bit 64 up is a field of the high word (R130). -/
theorem selectorLane_high (key : List Byte) {i : Nat} (h : 64 ≤ 32 * i) :
    selectorLane (digestValue key) i = ((digest key).2 >>> (32 * i - 64)).setWidth 32 := by
  rw [selectorLane, digestValue, BitVec.extractLsb'_append_eq_of_le h, BitVec.setWidth_ushiftRight_eq_extractLsb]

/-- Settles O40: lanes 0 and 1 are the halves of the low word, lanes 2 and 3 those of the high word, and each rotation is the
library's. -/
theorem selectorFoldsFourLanes : Obligations.SelectorFoldsFourLanes := by
  intro key
  rw [selector, selectorLane_low key (i := 0) (by decide), selectorLane_low key (i := 1) (by decide),
    selectorLane_high key (i := 2) (by decide), selectorLane_high key (i := 3) (by decide),
    rotl32_eq_rotateLeft _ (k := 8) (by decide), rotl32_eq_rotateLeft _ (k := 6) (by decide),
    rotl32_eq_rotateLeft _ (k := 4) (by decide), rotl32_eq_rotateLeft _ (k := 2) (by decide)]
  rfl

/-- Settles O41: the mask of `PAGE_LEVEL + 3 ≤ 16` bits keeps the low bits of the code, which are low bits of the digest from bit
`16 j` up. -/
theorem bitPositionsMaskTheCodes : Obligations.BitPositionsMaskTheCodes := by
  intro s key j _ hlevel
  have hdvd : 2 ^ (s.pageLevel.toNat + 3) ∣ 2 ^ 16 := Nat.pow_dvd_pow 2 (Nat.add_le_add_right hlevel 3)
  rw [bitPosition_toNat s _ j hlevel, probeCode_toNat, Nat.mod_mod_of_dvd _ hdvd, digestValue_toNat]
  exact ⟨rfl, Nat.mod_lt _ (Nat.two_pow_pos _)⟩

/-! ### The probes of a key -/

theorem pageOffset_eq_mul (s : State) (V : BitVec 128) : s.pageOffset V = s.pageIndex V * 2 ^ s.pageLevel.toNat :=
  Nat.shiftLeft_eq _ _

/-- Byte and mask of a bit position as a sum and a shift (R134, R137). -/
theorem probe_eq (s : State) (V : BitVec 128) (b : BitVec 16) :
    (probeAddress (s.pageOffset V) b, probeMask b) =
      (s.pageIndex V * 2 ^ s.pageLevel.toNat + b.toNat / 8, 1#8 <<< (b.toNat % 8)) := by
  rw [probeAddress, pageOffset_eq_mul, Nat.shiftRight_eq_div_pow, probeMask_eq_twoPow, BitVec.twoPow]

/-- The probes are those of the first WAY positions, in their order (R138). -/
theorem probes_eq_map (hway : s.way.toNat ≤ 8) (key : List Byte) :
    s.probes key = (List.range s.way.toNat).map fun j =>
      (probeAddress (s.pageOffset (digestValue key)) (s.bitPosition (digestValue key) j),
        probeMask (s.bitPosition (digestValue key) j)) := by
  rw [State.probes, State.probeSet, ← List.map_take, List.take_range, Nat.min_eq_left hway, List.map_map]
  rfl

/-- Every probe lies in the page the selector picks (R137). -/
theorem probes_in_page (h : s.Inv) (hc : s.cfgValid = 1#1) {p : Nat × Byte} (hp : p ∈ s.probes key) :
    s.pageIndex (digestValue key) * 2 ^ s.pageLevel.toNat ≤ p.1 ∧
      p.1 < (s.pageIndex (digestValue key) + 1) * 2 ^ s.pageLevel.toNat := by
  obtain ⟨j, -, -, rfl⟩ := probes_mem hp
  rw [probe_eq]
  exact ⟨Nat.le_add_right _ _, page_byte_lt (Nat.lt_succ_self _) (bitPosition_div_lt h hc _ j)⟩

/-- Settles O42: the list of probes is the list of the first WAY positions, each with its byte and mask, and a position's byte stays
below the page's size. -/
theorem probesStayInOnePage : Obligations.ProbesStayInOnePage := by
  intro s key h hc
  have hmap := probes_eq_map (h.way_range hc).2 key
  refine ⟨pageIndex_lt h hc _, ?_, fun j hj => ?_, fun p hp => ?_⟩
  · rw [hmap, List.length_map, List.length_range]
  · rw [hmap, List.getElem?_map, List.getElem?_range hj]
    exact congrArg some (probe_eq s _ _)
  · obtain ⟨hfrom, hto⟩ := probes_in_page h hc hp
    exact ⟨hfrom, hto, probes_inside h hc key p hp⟩

/-! ### The PROBE command -/

/-- Each packed position is read back from its own 16 bits (R139). -/
theorem extractLsb'_packPositions (b : Nat → BitVec 16) {j : Nat} (hj : j < 4) :
    (packPositions (b 0) (b 1) (b 2) (b 3)).extractLsb' (16 * j) 16 = b j := by
  apply BitVec.eq_of_toNat_eq
  rw [BitVec.extractLsb'_toNat, Nat.shiftRight_eq_div_pow, packPositions_toNat]
  interval_cases j <;> omega

/-- The page the selector picks begins inside the buffer, so its offset fits a result word (R134). -/
theorem pageOffset_word (h : s.Inv) (hc : s.cfgValid = 1#1) (V : BitVec 128) :
    (BitVec.ofNat 64 (s.pageOffset V)).toNat = s.pageIndex V * 2 ^ s.pageLevel.toNat := by
  have hpage : s.pageIndex V * 2 ^ s.pageLevel.toNat < s.bufBytes := by
    rw [bufBytes_mul hc]
    exact Nat.mul_lt_mul_of_pos_right (pageIndex_lt h hc V) (Nat.two_pow_pos _)
  have hsize := bufBytes_le h
  rw [pageOffset_eq_mul, BitVec.toNat_ofNat, Nat.mod_eq_of_lt (by omega)]

/-- On a configured engine PROBE only responds (R139). -/
theorem exec_probe (hc : s.cfgValid = 1#1) (key : List Byte) :
    let b := s.bitPosition (digestValue key)
    exec (.probe key) s = .next (s.respond ⟨.ok, BitVec.ofNat 64 (s.pageOffset (digestValue key)),
      packPositions (b 0) (b 1) (b 2) (b 3), packPositions (b 4) (b 5) (b 6) (b 7)⟩) :=
  whenConfigured_of_configured hc

/-- Settles O44: PROBE only responds, and a response is outside the engine; its first word is the offset, and each position is read
back from its place. -/
theorem probeAnswersOffsetAndPositions : Obligations.ProbeAnswersOffsetAndPositions := by
  intro s key h hc
  exact ⟨_, _, _, _, exec_probe hc key, respond_answered s _, s.respond_engine _, pageOffset_word h hc _,
    fun j hj => ⟨extractLsb'_packPositions (s.bitPosition (digestValue key)) hj,
      extractLsb'_packPositions (fun i => s.bitPosition (digestValue key) (4 + i)) hj⟩⟩

end Sys2Proof.Machine
end

section
/-! PROOFS. What TEST, SET and CLEAR answer and write (R150 to R152). TEST's loop and SET's both report whether every probed bit was 1
before; SET's loop has then written nothing, and otherwise it has set the probed bits and no other. -/

namespace Sys2Proof.Machine

variable {s t : State} {key : List Byte} {ps : List (Nat × Byte)} {m : Memory}

/-! ### TEST -/

theorem all_bitIsSet_iff :
    ((s.probes key).all fun p => bitIsSet (s.buf.read p.1) p.2) = true ↔ s.allProbedBitsSet key := by
  simp only [List.all_eq_true, bitIsSet_iff]
  rfl

/-- On a configured engine TEST only responds (R151). -/
theorem exec_test (h : s.Inv) (hc : s.cfgValid = 1#1) (key : List Byte) : exec (.test key) s =
    .next (s.respond ⟨.ok, boolWord ((s.probes key).all fun p => bitIsSet (s.buf.read p.1) p.2), 0#64, 0#64⟩) := by
  rw [exec, execTest, whenConfigured_of_configured hc, testProbes_eq (probes_inside h hc key)]
  rfl

/-- Settles O47: TEST only responds, with the conjunction of the probed bits, and a response is outside the engine. -/
theorem testReportsAllProbedBits : Obligations.TestReportsAllProbedBits := by
  intro s key h hc
  refine ⟨_, exec_test h hc key, s.respond_engine _, fun hset => ?_, fun hset => ?_⟩
  · rw [all_bitIsSet_iff.2 hset]
    exact respond_answered s _
  · rw [Bool.eq_false_of_not_eq_true (mt all_bitIsSet_iff.1 hset)]
    exact respond_answered s _

/-- A key has at least four probes on a configured engine (R22, R138). -/
theorem exists_probe (h : s.Inv) (hc : s.cfgValid = 1#1) (key : List Byte) : ∃ p, p ∈ s.probes key := by
  obtain ⟨-, hlength, -, -⟩ := probesStayInOnePage s key h hc
  have hway := (h.way_range hc).1
  exact List.exists_mem_of_length_pos (by omega)

/-- Settles O48: a probe reads a byte inside the buffer, and its mask is not 0. -/
theorem testOnEmptyAndFullBuffer : Obligations.TestOnEmptyAndFullBuffer := by
  intro s key h hc
  obtain ⟨t, hexec, -, hall, hnot⟩ := testReportsAllProbedBits s key h hc
  have hin := probes_inside h hc key
  constructor
  · intro hzeros
    refine ⟨t, hexec, hnot fun hset => ?_⟩
    obtain ⟨p, hp⟩ := exists_probe h hc key
    have hbit := hset p hp
    rw [hzeros p.1 (hin p hp), BitVec.zero_and] at hbit
    exact hbit rfl
  · intro hones
    refine ⟨t, hexec, hall fun p hp => ?_⟩
    obtain ⟨b, hb⟩ := probes_mask hp
    rw [hones p.1 (hin p hp), show (0xff#8 : Byte) = BitVec.allOnes 8 from rfl, BitVec.allOnes_and, hb]
    exact probeMask_ne_zero b

/-! ### SET -/

/-- A probe that finds its bit 0 decides the loop's outcome. -/
theorem priorHits_false (ps : List (Nat × Byte)) (m : Memory) : priorHits ps m false = false := by
  induction ps generalizing m with
  | nil => rfl
  | cons p ps ih => exact ih _

/-- A hit means that every probed bit was 1 before the loop: as long as each probe hits, the loop writes nothing. -/
theorem bitIsSet_of_priorHits (hm : m.wf) (hmask : ∀ p ∈ ps, ∃ b, p.2 = probeMask b) (h : priorHits ps m true = true) :
    ∀ p ∈ ps, bitIsSet (m.read p.1) p.2 = true := by
  induction ps with
  | nil => nofun
  | cons p ps ih =>
    rw [priorHits, hitAfter, Bool.true_and] at h
    cases hbit : bitIsSet (m.read p.1) p.2 with
    | false =>
      rw [hbit, priorHits_false] at h
      cases h
    | true =>
      obtain ⟨b, hb⟩ := hmask p List.mem_cons_self
      have hor : m.read p.1 ||| p.2 = m.read p.1 := by
        rw [hb] at hbit ⊢
        exact or_probeMask_of_bitIsSet hbit
      rw [hbit, hor, Memory.write_read_self p.1 hm] at h
      exact List.forall_mem_cons.2 ⟨hbit, ih (fun q hq => hmask q (List.mem_cons_of_mem p hq)) h⟩

/-- SET of a key one of whose probed bits is 0 answers 1, sets the probed bits and counts the key (R150). -/
theorem execSet_of_not_allProbedBitsSet (h : s.Inv) (hc : s.cfgValid = 1#1) (hset : ¬ s.allProbedBitsSet key) :
    execSet key s = .next ((s.setBuf (orMasks (s.probes key) s.buf)).countNew.respond ⟨.ok, 1#64, 0#64, 0#64⟩) := by
  have hmiss : priorHits (s.probes key) s.buf true = false := by
    refine Bool.eq_false_of_not_eq_true fun hhit => hset fun p hp => ?_
    exact (bitIsSet_iff _ _).1 (bitIsSet_of_priorHits h.buf_wf (fun _ => probes_mask) hhit p hp)
  rw [execSet, whenConfigured_of_configured hc, setProbes_eq (probes_inside h hc key), hmiss]
  rfl

/-- Whatever SET answers on a configured engine, its loop has gone over the buffer. -/
theorem buf_of_exec_set (hc : s.cfgValid = 1#1) (h : exec (.set key) s = .next t) : t.buf = orMasks (s.probes key) s.buf := by
  rcases execSet_cases key s hc with ⟨hit, -, -, hnext⟩ | ⟨hfault, -⟩
  · cases hnext.symm.trans h
    cases hit with
    | true | false => rfl
  · cases hfault.symm.trans h

/-- Settles O45: SET answers by whether every probed bit is 1, and its loop ORs the probes' masks into the buffer. -/
theorem setInsertsTheKey : Obligations.SetInsertsTheKey := by
  intro s key h hc
  obtain ⟨t, hexec⟩ := exec_completes h (.set key)
  obtain ⟨hconfig, -, -⟩ := writersOfEachRegister _ s t hexec
  refine ⟨t, hexec, hconfig rfl, fun hset => ?_, fun hset => ?_, fun a k => ?_⟩
  · cases (execSet_of_allProbedBitsSet h.buf_wf hc (probes_inside h hc key) hset).symm.trans hexec
    exact ⟨respond_answered s _, rfl, rfl⟩
  · cases (execSet_of_not_allProbedBitsSet h hc hset).symm.trans hexec
    exact ⟨respond_answered _ _, rfl⟩
  · rw [buf_of_exec_set hc hexec]
    exact getLsbD_orMasks h.buf_wf a k

theorem memReadByte_congr {a : Nat} (hsize : t.bufBytes = s.bufBytes) (hread : t.buf.read a = s.buf.read a) :
    t.memReadByte a = s.memReadByte a := by
  rw [State.memReadByte, State.memReadByte, hsize, hread]

/-- Settles O46: SET writes nothing, or its loop's bytes and perhaps the count; the loop writes only where its probes are. -/
theorem setFrame : Obligations.SetFrame := by
  intro s t key h
  obtain ⟨u, r, rfl, hw⟩ := exec_writes h
  obtain ⟨hinputs, -, hmax⟩ := hw.outside_engine
  have hsame := hw.sameConfiguration rfl
  cases hw with
  | nothing => exact ⟨hsame, .inl rfl, hmax, hinputs, fun _ _ => rfl⟩
  | setHeld => exact ⟨hsame, .inl rfl, hmax, hinputs, fun a ha => memReadByte_congr rfl (read_orMasks_other ha)⟩
  | setNew => exact ⟨hsame, .inr rfl, hmax, hinputs, fun a ha => memReadByte_congr rfl (read_orMasks_other ha)⟩

/-! ### CLEAR -/

/-- Settles O49: CLEAR gives the engine an empty list of cells, in which every address reads 0, and responds. -/
theorem clearZeroesTheBuffer : Obligations.ClearZeroesTheBuffer := by
  intro s hc
  exact ⟨_, whenConfigured_of_configured hc, respond_answered (s.setBuf Memory.zeros) _, ⟨rfl, rfl, rfl, rfl⟩, rfl, rfl,
    fun a ha => memReadByte_of_lt ha⟩

end Sys2Proof.Machine
end

section
/-! PROOFS. What the commands other than CLEAR, CONFIG and LOAD keep (R151, R153): they OR the masks of at most WAY probes into the
buffer and leave the configuration, so a key's probes stay where they were and their bits stay set. -/

namespace Sys2Proof.Machine

variable {i : Instr} {s t u : State} {key : List Byte}

/-! ### What such a command writes -/

theorem makesFilter_of_keepsBits (hi : keepsBits i = true) : makesFilter i = false := by
  cases i with
  | config | load => cases hi
  | _ => rfl

theorem length_probes_le (s : State) (key : List Byte) : (s.probes key).length ≤ s.way.toNat := by
  rw [State.probes, List.length_map]
  exact List.length_take_le _ _

/-- Such a command ORs the masks of at most WAY probes into the buffer; of none, unless it is SET (R153). -/
theorem buf_of_keepsBits (hi : keepsBits i = true) (h : exec i s = .next t) :
    ∃ ps : List (Nat × Byte), ps.length ≤ s.way.toNat ∧ (∀ p ∈ ps, ∃ b, p.2 = probeMask b) ∧ t.buf = orMasks ps s.buf := by
  obtain ⟨u, r, rfl, hw⟩ := exec_writes h
  cases hw with
  | config | load | clear => cases hi
  | nothing => exact ⟨[], Nat.zero_le _, nofun, rfl⟩
  | @setHeld _ key | @setNew _ key => exact ⟨s.probes key, length_probes_le s key, fun _ => probes_mask, rfl⟩

/-- Such a command turns no bit from 1 to 0 (R153). -/
theorem bit_stays_set (hm : s.buf.wf) (hi : keepsBits i = true) (h : exec i s = .next t) {a k : Nat}
    (hbit : (s.buf.read a).getLsbD k = true) : (t.buf.read a).getLsbD k = true := by
  obtain ⟨ps, -, -, hbuf⟩ := buf_of_keepsBits hi h
  rw [hbuf, getLsbD_orMasks hm]
  exact .inl hbit

/-! ### The probed bits of a key -/

/-- A key's probes depend on the configuration alone (R138). -/
theorem probes_of_sameConfiguration (h : SameConfiguration s t) : t.probes key = s.probes key := by
  obtain ⟨-, hway, hlevel, hcount⟩ := h
  have hposition (V : BitVec 128) : t.bitPosition V = s.bitPosition V := by
    funext j
    rw [State.bitPosition, hlevel, State.bitPosition]
  simp only [State.probes, State.probeSet, State.pageOffset, State.pageIndex, hposition, hway, hlevel, hcount]

/-- Where the configuration stays and no bit goes from 1 to 0, a key set stays set. -/
theorem allProbedBitsSet_of_bits (hconfig : SameConfiguration s t)
    (hbits : ∀ a k, (s.buf.read a).getLsbD k = true → (t.buf.read a).getLsbD k = true) (hset : s.allProbedBitsSet key) :
    t.allProbedBitsSet key := by
  intro p hp
  rw [probes_of_sameConfiguration hconfig] at hp
  have hbit := (bitIsSet_iff _ _).2 (hset p hp)
  obtain ⟨b, hb⟩ := probes_mask hp
  rw [← bitIsSet_iff, hb, bitIsSet_probeMask]
  rw [hb, bitIsSet_probeMask] at hbit
  exact hbits p.1 _ hbit

theorem allProbedBitsSet_of_buf_eq (hconfig : SameConfiguration s t) (hbuf : t.buf = s.buf) (hset : s.allProbedBitsSet key) :
    t.allProbedBitsSet key :=
  allProbedBitsSet_of_bits hconfig (fun _ _ hbit => hbuf ▸ hbit) hset

theorem exec_keeps_probedBits (hm : s.buf.wf) (hi : keepsBits i = true) (h : exec i s = .next t)
    (hset : s.allProbedBitsSet key) : t.allProbedBitsSet key ∧ SameConfiguration s t := by
  obtain ⟨hconfig, -, -⟩ := writersOfEachRegister i s t h
  have hsame := hconfig (makesFilter_of_keepsBits hi)
  exact ⟨allProbedBitsSet_of_bits hsame (fun _ _ => bit_stays_set hm hi h) hset, hsame⟩

/-- The probed bits and the configuration are in the engine. -/
theorem probedBits_of_engine_eq (he : t.engine = s.engine) (hset : s.allProbedBitsSet key) :
    t.allProbedBitsSet key ∧ SameConfiguration s t := by
  have hsame : SameConfiguration s t :=
    ⟨congrArg Engine.cfgValid he, congrArg Engine.way he, congrArg Engine.pageLevel he, congrArg Engine.pageCount he⟩
  exact ⟨allProbedBitsSet_of_buf_eq hsame (congrArg Engine.buf he) hset, hsame⟩

theorem SameConfiguration.trans (hst : SameConfiguration s t) (htu : SameConfiguration t u) : SameConfiguration s u := by
  obtain ⟨hvalid, hway, hlevel, hcount⟩ := hst
  obtain ⟨hvalid', hway', hlevel', hcount'⟩ := htu
  exact ⟨hvalid'.trans hvalid, hway'.trans hway, hlevel'.trans hlevel, hcount'.trans hcount⟩

/-- A command keeps the probed bits of a key set, unless it decodes to CLEAR, CONFIG or LOAD. -/
theorem runCommand_keeps_probedBits {c : Command} (hm : s.buf.wf) (h : runCommand c s = .next t) (hset : s.allProbedBitsSet key) :
    (t.allProbedBitsSet key ∧ SameConfiguration s t) ∨ ∃ i, decode c = .ok i ∧ keepsBits i = false := by
  unfold runCommand at h
  split at h
  · cases h
    exact .inl (probedBits_of_engine_eq (s.respond_engine _) hset)
  · next i hd =>
    cases hi : keepsBits i with
    | false => exact .inr ⟨i, hd, hi⟩
    | true => exact .inl (exec_keeps_probedBits hm hi h hset)

/-- Settles O54: the step is a command in a state with the same engine, nothing, or a reset. -/
theorem probedBitsStaySet : Obligations.ProbedBitsStaySet := by
  intro s t key hinv _ hset h
  rcases step_cases h with ⟨c, s0, hrun, he, -, hport⟩ | ⟨ht, -, -⟩ | ⟨s0, -, -, -, hreset⟩
  · obtain ⟨hset0, hsame0⟩ := probedBits_of_engine_eq he hset
    rcases runCommand_keeps_probedBits (inv_engine he hinv).buf_wf hrun hset0 with ⟨hsett, hsame⟩ | ⟨i, hd, hi⟩
    · exact .inl ⟨hsett, hsame0.trans hsame⟩
    · refine .inr (.inl ⟨c, i, ?_, hd, hi⟩)
      rcases hport with ⟨hbusy, -, -⟩ | ⟨rest, hidle, hinputs, -⟩
      · exact .inl hbusy
      · exact .inr ⟨hidle, rest, hinputs⟩
  · cases ht
    exact .inl (probedBits_of_engine_eq rfl hset)
  · exact .inr (.inr hreset)

/-! ### Runs -/

/-- A configured engine under the invariant in which every probed bit of the key is 1. -/
structure State.Holds (s : State) (key : List Byte) : Prop where
  inv : s.Inv
  configured : s.cfgValid = 1#1
  probed : s.allProbedBitsSet key

theorem exec_inv (hinv : s.Inv) (h : exec i s = .next t) : t.Inv := by
  obtain ⟨u, r, rfl, hw⟩ := exec_writes h
  exact inv_engine (u.respond_engine r) (hw.inv hinv)

theorem holds_of_exec_set (hinv : s.Inv) (hc : s.cfgValid = 1#1) (h : exec (.set key) s = .next t) : t.Holds key := by
  obtain ⟨hconfig, -, -⟩ := writersOfEachRegister _ s t h
  have hsame : SameConfiguration (s.setBuf (orMasks (s.probes key) s.buf)) t := hconfig rfl
  have hset := allProbedBitsSet_of_buf_eq hsame (buf_of_exec_set hc h) (allProbedBitsSet_setBuf_orMasks hinv.buf_wf)
  obtain ⟨hvalid, -, -, -⟩ := hsame
  exact ⟨exec_inv hinv h, hvalid.trans hc, hset⟩

theorem State.Holds.exec (hs : s.Holds key) (hi : keepsBits i = true) (h : exec i s = .next t) : t.Holds key := by
  obtain ⟨hset, hvalid, -, -, -⟩ := exec_keeps_probedBits hs.inv.buf_wf hi h hs.probed
  exact ⟨exec_inv hs.inv h, hvalid.trans hs.configured, hset⟩

theorem State.Holds.runs {l : List Instr} (hs : s.Holds key) (hl : ∀ i ∈ l, keepsBits i = true) (h : runs l s u) :
    u.Holds key := by
  induction l generalizing s with
  | nil => exact h ▸ hs
  | cons i l ih =>
    obtain ⟨t, hexec, hrest⟩ := h
    obtain ⟨hi, hl⟩ := List.forall_mem_cons.1 hl
    exact ih (hs.exec hi hexec) hl hrest

/-- Settles O52: SET leaves the key's probed bits set, the run keeps them so, and TEST then answers 1. -/
theorem noFalseNegatives : Obligations.NoFalseNegatives := by
  intro s t u key l hinv hc hset hl hrun
  have hu := (holds_of_exec_set hinv hc hset).runs hl hrun
  obtain ⟨v, hexec, -, hall, -⟩ := testReportsAllProbedBits u key hu.inv hu.configured
  exact ⟨v, hexec, hall hu.probed⟩

end Sys2Proof.Machine
end

section
/-! PROOFS. The number of 1 bits in the buffer (R153): a probe mask is one bit, so a probe of SET adds at most one. -/

namespace Sys2Proof.Machine

variable {m : Memory} {ps : List (Nat × Byte)}

/-! ### One byte -/

theorem byteOnes_eq_card (b : Byte) : byteOnes b = ((Finset.range 8).filter fun k => b.getLsbD k = true).card := by
  have hfilter : ((List.range 8).filter fun k => b.getLsbD k) = (List.range 8).filter fun k => decide (b.getLsbD k = true) := by
    simp only [Bool.decide_eq_true]
  exact congrArg List.length hfilter

theorem byteOnes_unlistedByte : byteOnes unlistedByte = 0 := rfl

theorem byteOnes_or (a b : Byte) : byteOnes a ≤ byteOnes (a ||| b) ∧ byteOnes (a ||| b) ≤ byteOnes a + byteOnes b := by
  simp only [byteOnes_eq_card, BitVec.getLsbD_or, Bool.or_eq_true, Finset.filter_or]
  exact ⟨Finset.card_le_card Finset.subset_union_left, Finset.card_union_le _ _⟩

theorem byteOnes_probeMask (b : BitVec 16) : byteOnes (probeMask b) ≤ 1 := by
  rw [byteOnes_eq_card]
  refine Finset.card_le_one.2 fun j hj k hk => ?_
  rw [Finset.mem_filter, getLsbD_probeMask, decide_eq_true_iff] at hj hk
  exact hj.2.symm.trans hk.2

/-! ### The buffer -/

/-- A write exchanges one byte's 1 bits for another's. -/
theorem onesCount_write (hm : m.wf) (x : Nat) (v : Byte) :
    onesCount (m.write x v) + byteOnes (m.read x) = onesCount m + byteOnes v := by
  induction m with
  | nil =>
    rw [Memory.write, Memory.read, byteOnes_unlistedByte]
    split
    · next hv => rw [hv, byteOnes_unlistedByte]
    · simp only [onesCount]; omega
  | cons c m ih =>
    obtain ⟨a, b⟩ := c
    obtain ⟨hwf, -, habove⟩ := Memory.wf_cons hm
    rw [Memory.write]
    split
    · next hlt =>
      rw [Memory.read, if_neg (Nat.ne_of_lt hlt), Memory.read_below fun c hc => hlt.trans (habove c hc), byteOnes_unlistedByte]
      split
      · next hv => rw [hv, byteOnes_unlistedByte]
      · simp only [onesCount]; omega
    · split
      · next heq =>
        rw [Memory.read, if_pos heq, onesCount]
        split
        · next hv => rw [hv, byteOnes_unlistedByte]; omega
        · rw [onesCount]; omega
      · next hne =>
        have := ih hwf
        rw [Memory.read, if_neg hne, onesCount, onesCount]
        omega

/-- SET's loop adds at most one 1 bit for each probe. -/
theorem onesCount_orMasks (hm : m.wf) (hmask : ∀ p ∈ ps, ∃ b, p.2 = probeMask b) :
    onesCount m ≤ onesCount (orMasks ps m) ∧ onesCount (orMasks ps m) ≤ onesCount m + ps.length := by
  induction ps generalizing m with
  | nil => exact ⟨Nat.le_refl _, Nat.le_refl _⟩
  | cons p ps ih =>
    obtain ⟨⟨b, hb⟩, hmasks⟩ := List.forall_mem_cons.1 hmask
    have hwrite := onesCount_write hm p.1 (m.read p.1 ||| p.2)
    have hbyte := byteOnes_or (m.read p.1) p.2
    have hone := hb ▸ byteOnes_probeMask b
    have hrest := ih (Memory.write_wf p.1 (m.read p.1 ||| p.2) hm) hmasks
    rw [orMasks, List.length_cons]
    omega

/-- Settles O51: such a command ORs the masks of at most WAY probes into the buffer. -/
theorem fillNeverDecreases : Obligations.FillNeverDecreases := by
  intro i s t hinv hi h
  obtain ⟨ps, hlength, hmask, hbuf⟩ := buf_of_keepsBits hi h
  obtain ⟨hmore, hatMost⟩ := onesCount_orMasks hinv.buf_wf hmask
  rw [← hbuf] at hmore hatMost
  exact ⟨fun a k => bit_stays_set hinv.buf_wf hi h, hmore, hatMost.trans (Nat.add_le_add_left hlength _)⟩

end Sys2Proof.Machine
end

section
/-! PROOFS. Making a filter (R170 to R174): when their checks pass, CONFIG and LOAD answer from the state that holds the new filter, and
its size and its bytes are those of the command. -/

namespace Sys2Proof.Machine

variable {s t : State} {way lvl : BitVec 4} {cnt : BitVec 32} {image : List Byte}

/-- Settles O28: the five legal ways. -/
theorem leastPageLevelOfEachWay : Obligations.LeastPageLevelOfEachWay := by
  intro way hlo hhi
  refine ⟨rfl, ?_⟩
  interval_cases way <;> rfl

/-! ### Commands whose checks pass -/

theorem exec_config_of_legal (hshape : shapeOk way lvl = true) (hlo : 1 ≤ cnt.toNat) (hhi : cnt.toNat ≤ 2 ^ 31 - 1)
    (hfits : cnt.toNat * 2 ^ lvl.toNat ≤ s.bufBytesMax.toNat) :
    exec (.config way lvl cnt) s = .next ((s.install way lvl cnt 0#64 Memory.zeros).respond ⟨.ok, 0#64, 0#64, 0#64⟩) := by
  have hchecked : configError s way lvl cnt = none := by
    rcases configError_cases s way lvl cnt with ⟨-, hbad | hbad | hbad⟩ | ⟨-, -, -, -, hbig⟩ | ⟨hnone, -⟩
    · cases hbad.symm.trans hshape
    · omega
    · omega
    · omega
    · exact hnone
  rcases execConfig_cases way lvl cnt s with ⟨e, he, -⟩ | ⟨-, hexec⟩
  · cases he.symm.trans hchecked
  · exact hexec

theorem exec_load_of_legal (uniq : Word) (hshape : shapeOk way lvl = true) (hne : image.length ≠ 0)
    (hdvd : 2 ^ lvl.toNat ∣ image.length) (hfits : image.length ≤ s.bufBytesMax.toNat) :
    exec (.load way lvl uniq image) s =
      .next ((s.install way lvl (BitVec.ofNat 32 (image.length >>> lvl.toNat)) uniq (Memory.ofBytes 0 image)).respond
        ⟨.ok, 0#64, 0#64, 0#64⟩) := by
  have hchecked : loadError s way lvl image.length = none := by
    rcases loadError_cases s way lvl image.length with ⟨-, hbad | hbad | hbad⟩ | ⟨-, -, -, -, hbig⟩ | ⟨hnone, -⟩
    · cases hbad.symm.trans hshape
    · exact absurd hbad hne
    · exact absurd hdvd hbad
    · omega
    · exact hnone
  rcases execLoad_cases way lvl uniq image s with ⟨e, he, -⟩ | ⟨-, hexec⟩
  · cases he.symm.trans hchecked
  · exact hexec

/-! ### The bytes of the new buffer -/

/-- An image laid out from address 0 holds its byte `i` at address `i` (R172). -/
theorem read_ofBytes_zero (bs : List Byte) (i : Nat) : (Memory.ofBytes 0 bs).read i = bs.getD i unlistedByte := by
  rw [← Memory.read_ofBytes 0 bs i, Nat.zero_add]

/-- A buffer that is an image has the image's bytes and no address beyond them (R50, R172). -/
theorem memReadByte_of_image (hsize : t.bufBytes = image.length) (hbuf : t.buf = Memory.ofBytes 0 image) (a : Nat) :
    t.memReadByte a = image[a]? := by
  by_cases ha : a < image.length
  · rw [memReadByte_of_lt (hsize ▸ ha), hbuf, read_ofBytes_zero, List.getD_eq_getElem _ _ ha, List.getElem?_eq_getElem ha]
  · rw [memReadByte_of_not_lt (hsize ▸ ha), List.getElem?_eq_none (Nat.not_lt.1 ha)]

/-! ### The obligations -/

/-- Settles O29: the checks pass, and the list of cells installed is empty, in which every address reads 0. -/
theorem configMakesEmptyFilter : Obligations.ConfigMakesEmptyFilter := by
  intro s way lvl cnt hway_lo hway_hi hlvl_lo hlvl_hi hlo hhi hfits
  have hshape := (shapeOk_iff way lvl).2 ⟨hway_lo, hway_hi, hlvl_lo, hlvl_hi⟩
  have hsize : (s.install way lvl cnt 0#64 Memory.zeros).bufBytes = cnt.toNat * 2 ^ lvl.toNat := Nat.shiftLeft_eq ..
  refine ⟨_, exec_config_of_legal hshape hlo hhi hfits, respond_answered (s.install ..) _, rfl, rfl, rfl, rfl, rfl, hsize, fun a => ?_⟩
  rw [← hsize]
  rfl

/-- Settles O30: the checks pass, and the page count installed is the image's length in pages, so the size is that length. -/
theorem loadRebuildsFilter : Obligations.LoadRebuildsFilter := by
  intro s way lvl uniq image hlength hway_lo hway_hi hlvl_lo hlvl_hi hne hdvd hfits
  have hshape := (shapeOk_iff way lvl).2 ⟨hway_lo, hway_hi, hlvl_lo, hlvl_hi⟩
  obtain ⟨hpages, -⟩ := load_pageCount hshape hne hdvd (hlength.trans (by decide))
  have hsize : (s.install way lvl (BitVec.ofNat 32 (image.length >>> lvl.toNat)) uniq (Memory.ofBytes 0 image)).bufBytes = image.length :=
    (Nat.shiftLeft_eq ..).trans hpages
  exact ⟨_, exec_load_of_legal uniq hshape hne hdvd hfits, respond_answered (s.install ..) _, rfl, rfl, rfl,
    Nat.eq_div_of_mul_eq_left (Nat.two_pow_pos _).ne' hpages, rfl, hsize, memReadByte_of_image hsize rfl⟩

end Sys2Proof.Machine
end

section
/-! PROOFS. Export and re-import (R172, R175): the words RDBUF answers, one after another, are the bytes of the buffer, and a buffer in
canonical form is its bytes laid out again, so LOAD of them gives the filter back. -/

namespace Sys2Proof.Machine

variable {s : State} {words : List Word}

/-! ### The bytes of a buffer -/

theorem Memory.bytes_add (m : Memory) (a n k : Nat) : m.bytes a (n + k) = m.bytes a n ++ m.bytes (a + n) k := by
  induction n generalizing a with
  | zero => rw [Nat.zero_add]; rfl
  | succ n ih =>
    rw [Nat.add_right_comm n 1 k, Memory.bytes, Memory.bytes, ih, Nat.add_right_comm a 1 n]
    rfl

/-- Groups of eight bytes, one after another, are all the bytes. -/
theorem Memory.flatMap_bytes_eight (m : Memory) (k : Nat) :
    ((List.range k).flatMap fun i => m.bytes (8 * i) 8) = m.bytes 0 (8 * k) := by
  induction k with
  | zero => rfl
  | succ k ih =>
    rw [List.range_succ, List.flatMap_append, ih, List.flatMap_singleton, Nat.mul_succ, Memory.bytes_add, Nat.zero_add]

/-- A canonical memory below `n` is its first `n` bytes laid out from address 0. -/
theorem Memory.ofBytes_bytes {m : Memory} {n : Nat} (hm : m.wf) (hin : ∀ c ∈ m, c.1 < n) : Memory.ofBytes 0 (m.bytes 0 n) = m := by
  refine Memory.ext_read (Memory.ofBytes_wf ..) hm fun x => ?_
  rw [read_ofBytes_zero]
  by_cases hx : x < n
  · rw [Memory.getD_bytes m 0 n x _ hx, Nat.zero_add]
  · have hbeyond : (m.bytes 0 n).length ≤ x := (Memory.length_bytes m 0 n).trans_le (Nat.not_lt.1 hx)
    rw [List.getD_eq_default _ _ hbeyond, Memory.read_of_not_listed fun c hc (heq : c.1 = x) => hx (heq ▸ hin c hc)]

/-! ### The words of an export -/

/-- A word RDBUF answers is the eight bytes at its index. -/
theorem word_of_exec_rdbuf {t : State} {i : Nat} {w : Word} (hc : s.cfgValid = 1#1) (hi : i < 2 ^ 32)
    (h : exec (.rdbuf (BitVec.ofNat 32 i)) s = .next t) (hr : t.responses = ⟨.ok, w, 0#64, 0#64⟩ :: s.responses) :
    w = leWord (s.buf.bytes (8 * i) 8) := by
  have hindex : (BitVec.ofNat 32 i).toNat = i := (BitVec.toNat_ofNat ..).trans (Nat.mod_eq_of_lt hi)
  rcases execRdbuf_configured (BitVec.ofNat 32 i) hc with ⟨-, hexec⟩ | ⟨-, hexec⟩
  · obtain rfl := Host.Outcome.next.inj (hexec.symm.trans h)
    rw [hindex] at hr
    exact (congrArg Response.res0 (List.head_eq_of_cons_eq hr)).symm
  · obtain rfl := Host.Outcome.next.inj (hexec.symm.trans h)
    cases congrArg Response.status (List.head_eq_of_cons_eq hr)

/-- The exported words spell the buffer's bytes. -/
theorem exported_bytes (hc : s.cfgValid = 1#1) {k : Nat} (hk : k ≤ 2 ^ 32) (hlength : words.length = k)
    (hread : ∀ (i : Nat) (w : Word), words[i]? = some w →
      ∃ t, exec (.rdbuf (BitVec.ofNat 32 i)) s = .next t ∧ t.responses = ⟨.ok, w, 0#64, 0#64⟩ :: s.responses) :
    (words.flatMap fun w => leBytes 8 w.toNat) = s.buf.bytes 0 (8 * k) := by
  have hwords : words = (List.range k).map fun i => leWord (s.buf.bytes (8 * i) 8) := by
    refine List.ext_getElem (by simpa using hlength) fun i hi _ => ?_
    obtain ⟨t, hexec, hr⟩ := hread i words[i] (List.getElem?_eq_getElem hi)
    rw [List.getElem_map, List.getElem_range]
    exact word_of_exec_rdbuf hc (by omega) hexec hr
  rw [hwords, List.flatMap_map, ← Memory.flatMap_bytes_eight]
  simp only [leBytes_leWord (Memory.length_bytes ..)]

/-! ### The registers of a filter that meets R30 -/

theorem shapeOk_of_inv (h : s.Inv) (hc : s.cfgValid = 1#1) : shapeOk s.way s.pageLevel = true := by
  obtain ⟨hway_lo, hway_hi⟩ := h.way_range hc
  obtain ⟨hlvl_lo, hlvl_hi⟩ := h.level_range hc
  exact (shapeOk_iff ..).2 ⟨hway_lo, hway_hi, hlvl_lo, hlvl_hi⟩

/-- The page count LOAD computes from the size of a filter is the filter's own. -/
theorem pageCount_of_bufBytes (hc : s.cfgValid = 1#1) : BitVec.ofNat 32 (s.bufBytes >>> s.pageLevel.toNat) = s.pageCount := by
  rw [State.bufBytes_configured hc, Nat.shiftLeft_shiftRight, BitVec.ofNat_toNat, BitVec.setWidth_eq]

/-- Whole pages are whole words, since a page has 2^6 bytes or more. -/
theorem eight_dvd_bufBytes (h : s.Inv) (hc : s.cfgValid = 1#1) : 8 ∣ s.bufBytes := by
  have hpage : 2 ^ 3 ∣ 2 ^ s.pageLevel.toNat := Nat.pow_dvd_pow 2 (le_trans (by decide) (six_le_of_shapeOk (shapeOk_of_inv h hc)))
  rw [bufBytes_mul hc]
  exact hpage.mul_left _

/-- LOAD of a filter's own bytes and registers gives any engine of the same size that filter. -/
theorem exec_load_own_bytes {u : State} (h : s.Inv) (hc : s.cfgValid = 1#1) (hmax : u.bufBytesMax = s.bufBytesMax) :
    ∃ t, exec (.load s.way s.pageLevel s.uniqueCount (s.buf.bytes 0 s.bufBytes)) u = .next t ∧ t.engine = s.engine := by
  have hlength := Memory.length_bytes s.buf 0 s.bufBytes
  obtain ⟨hcnt, -⟩ := h.count_range hc
  have hsize := bufBytes_mul hc
  have hne : s.bufBytes ≠ 0 := hsize ▸ (Nat.mul_pos hcnt (Nat.two_pow_pos _)).ne'
  have hdvd : 2 ^ s.pageLevel.toNat ∣ s.bufBytes := hsize ▸ Nat.dvd_mul_left ..
  have hfits : s.bufBytes ≤ u.bufBytesMax.toNat := hmax ▸ hsize ▸ h.size_fits hc
  refine ⟨_, exec_load_of_legal s.uniqueCount (shapeOk_of_inv h hc) (by rwa [hlength]) (by rwa [hlength]) (by rwa [hlength]), ?_⟩
  rw [hlength, pageCount_of_bufBytes hc, Memory.ofBytes_bytes h.buf_wf h.buf_inside, State.respond_engine]
  simp [State.engine, hc, hmax]

/-- Settles O33: the exported words spell the buffer, and LOAD of a filter's own bytes gives it back. -/
theorem exportedFilterReloads : Obligations.ExportedFilterReloads := by
  intro s u words h hc hsize hmax hlength hread
  rw [exported_bytes hc (by omega) hlength hread, Nat.mul_div_cancel' (eight_dvd_bufBytes h hc)]
  exact exec_load_own_bytes h hc hmax

end Sys2Proof.Machine
end

section
/-! PROOFS. How a command ends (R200 to R208): which check of which command fails with which status, that a failing check decides the
answer and changes nothing, and that a command none of whose checks fails ends with OK. -/

namespace Sys2Proof.Machine

/-- `Fails i s e`: the first check of the command `i` that fails in the state `s` ends it with the status `e` (R202). -/
inductive Fails : Instr → State → Status → Prop
  | unconfigured {i : Instr} {s : State} (needs : needsFilter i = true) (unconfigured : s.cfgValid = 0#1) : Fails i s .notConfigured
  | config {s : State} {way lvl : BitVec 4} {cnt : BitVec 32} {e : Status} (checked : configError s way lvl cnt = some e) :
      Fails (.config way lvl cnt) s e
  | load {s : State} {way lvl : BitVec 4} {uniq : Word} {image : List Byte} {e : Status}
      (checked : loadError s way lvl image.length = some e) : Fails (.load way lvl uniq image) s e
  | rdreg {s : State} {reg : BitVec 32} (reserved : 7 < reg.toNat) : Fails (.rdreg reg) s .outOfRange
  | rdbuf {s : State} {index : BitVec 32} (configured : s.cfgValid = 1#1) (beyond : s.bufBytes / 8 ≤ index.toNat) :
      Fails (.rdbuf index) s .outOfRange

variable {i : Instr} {s t : State} {c : Command} {e : Status} {r : Response} {way lvl : BitVec 4} {cnt : BitVec 32} {n : Nat}

/-! ### The checks of CONFIG and LOAD, status by status -/

theorem shapeOk_eq_false_iff :
    shapeOk way lvl = false ↔ way.toNat < 4 ∨ 8 < way.toNat ∨ lvl.toNat < 8 - 8 / way.toNat ∨ 13 < lvl.toNat := by
  rw [← Bool.not_eq_true, shapeOk_iff]
  omega

/-- CONFIG's checks of R205. -/
theorem configError_invalidParameter_iff : configError s way lvl cnt = some .invalidParameter ↔
    way.toNat < 4 ∨ 8 < way.toNat ∨ lvl.toNat < 8 - 8 / way.toNat ∨ 13 < lvl.toNat ∨ cnt.toNat < 1 ∨ 2 ^ 31 - 1 < cnt.toNat := by
  rcases configError_cases s way lvl cnt with ⟨he, hbad⟩ | ⟨he, hshape, hlo, hhi, -⟩ | ⟨he, hshape, hlo, hhi, -⟩
  · rw [shapeOk_eq_false_iff] at hbad
    exact iff_of_true he (by omega)
  all_goals
    rw [shapeOk_iff] at hshape
    exact iff_of_false (by simp [he]) (by omega)

/-- CONFIG's check of R206, which comes after those of R205. -/
theorem configError_capacityOverflow_iff : configError s way lvl cnt = some .capacityOverflow ↔
    4 ≤ way.toNat ∧ way.toNat ≤ 8 ∧ 8 - 8 / way.toNat ≤ lvl.toNat ∧ lvl.toNat ≤ 13 ∧ 1 ≤ cnt.toNat ∧ cnt.toNat ≤ 2 ^ 31 - 1 ∧
      s.bufBytesMax.toNat < cnt.toNat * 2 ^ lvl.toNat := by
  rcases configError_cases s way lvl cnt with ⟨he, hbad⟩ | ⟨he, hshape, hlo, hhi, hbig⟩ | ⟨he, -, -, -, hfits⟩
  · rw [shapeOk_eq_false_iff] at hbad
    exact iff_of_false (by simp [he]) (by omega)
  · rw [shapeOk_iff] at hshape
    exact iff_of_true he (by omega)
  · exact iff_of_false (by simp [he]) (by omega)

/-- LOAD's checks of R205. -/
theorem loadError_invalidParameter_iff : loadError s way lvl n = some .invalidParameter ↔
    way.toNat < 4 ∨ 8 < way.toNat ∨ lvl.toNat < 8 - 8 / way.toNat ∨ 13 < lvl.toNat ∨ n = 0 ∨ ¬ 2 ^ lvl.toNat ∣ n := by
  rcases loadError_cases s way lvl n with ⟨he, hbad⟩ | ⟨he, hshape, hne, hdvd, -⟩ | ⟨he, hshape, hne, hdvd, -⟩
  · rw [shapeOk_eq_false_iff] at hbad
    exact iff_of_true he (by tauto)
  all_goals
    rw [shapeOk_iff] at hshape
    exact iff_of_false (by simp [he]) (by simp [hdvd]; omega)

/-- LOAD's check of R206, which comes after those of R205. -/
theorem loadError_capacityOverflow_iff : loadError s way lvl n = some .capacityOverflow ↔
    4 ≤ way.toNat ∧ way.toNat ≤ 8 ∧ 8 - 8 / way.toNat ≤ lvl.toNat ∧ lvl.toNat ≤ 13 ∧ n ≠ 0 ∧ 2 ^ lvl.toNat ∣ n ∧
      s.bufBytesMax.toNat < n := by
  rcases loadError_cases s way lvl n with ⟨he, hbad⟩ | ⟨he, hshape, hne, hdvd, hbig⟩ | ⟨he, -, -, -, hfits⟩
  · rw [shapeOk_eq_false_iff] at hbad
    refine iff_of_false (by simp [he]) fun ⟨_, _, _, _, hne, hdvd, _⟩ => ?_
    simp [hne, hdvd] at hbad
    omega
  · rw [shapeOk_iff] at hshape
    exact iff_of_true he (by tauto)
  · exact iff_of_false (by simp [he]) (by omega)

/-- The checks of CONFIG report two statuses (R170). -/
theorem configError_eq_some (h : configError s way lvl cnt = some e) : e = .invalidParameter ∨ e = .capacityOverflow := by
  rcases configError_cases s way lvl cnt with ⟨he, -⟩ | ⟨he, -⟩ | ⟨he, -⟩ <;> cases he.symm.trans h
  · exact .inl rfl
  · exact .inr rfl

/-- The checks of LOAD report the same two (R172). -/
theorem loadError_eq_some (h : loadError s way lvl n = some e) : e = .invalidParameter ∨ e = .capacityOverflow := by
  rcases loadError_cases s way lvl n with ⟨he, -⟩ | ⟨he, -⟩ | ⟨he, -⟩ <;> cases he.symm.trans h
  · exact .inl rfl
  · exact .inr rfl

/-! ### Which command fails with which status -/

theorem fails_notConfigured_iff : Fails i s .notConfigured ↔ s.cfgValid = 0#1 ∧ needsFilter i = true := by
  refine ⟨fun h => ?_, fun ⟨hc, hi⟩ => .unconfigured hi hc⟩
  cases h with
  | unconfigured hi hc => exact ⟨hc, hi⟩
  | config he => simpa using configError_eq_some he
  | load he => simpa using loadError_eq_some he

/-- Only an ill-formed command is illegal, and the decoder gives none of those an instruction (R203). -/
theorem not_fails_illegalCommand : ¬ Fails i s .illegalCommand := by
  intro h
  cases h with
  | config he => simpa using configError_eq_some he
  | load he => simpa using loadError_eq_some he

/-! ### How a command ends -/

theorem exec_unconfigured (hi : needsFilter i = true) (hc : s.cfgValid = 0#1) :
    exec i s = .next (s.respond (errorResponse .notConfigured)) := by
  cases i with
  | config | load | digest | rdreg => cases hi
  | clear | set | test | probe | rdbuf => exact whenConfigured_of_unconfigured hc

/-- A failing check decides the answer: its status, zeros, and the engine as it was (R201). -/
theorem Fails.exec_eq (h : Fails i s e) : exec i s = .next (s.respond (errorResponse e)) := by
  cases h with
  | unconfigured hi hc => exact exec_unconfigured hi hc
  | config he =>
    rw [exec, execConfig, he]
    exact raiseStatus_eq e s
  | load he =>
    rw [exec, execLoad, he]
    exact raiseStatus_eq e s
  | @rdreg _ reg hgt =>
    rcases execRdreg_cases reg s with ⟨hle, -⟩ | ⟨-, hexec⟩
    · exact absurd hle (Nat.not_le.2 hgt)
    · exact hexec
  | @rdbuf _ index hc hge =>
    rcases execRdbuf_configured index hc with ⟨hlt, -⟩ | ⟨-, hexec⟩
    · exact absurd hge (Nat.not_le.2 hlt)
    · exact hexec

/-- The newest response is the one a command ends with. -/
theorem newest_eq_of_next {o : Result} {u : State} {r' : Response} (ho : o = .next (u.respond r')) (h : o = .next t)
    (hr : t.responses = r :: s.responses) : r = r' := by
  cases ho.symm.trans h
  exact (List.head_eq_of_cons_eq hr).symm

theorem Fails.response_eq (hf : Fails i s e) (h : exec i s = .next t) (hr : t.responses = r :: s.responses) : r = errorResponse e :=
  newest_eq_of_next hf.exec_eq h hr

/-- A command of R204 fails on an engine that is not configured, so the configured engine is the case left to look at. -/
theorem or_fails_of_needsFilter {p : Prop} (hi : needsFilter i = true) (hk : s.cfgValid = 1#1 → p ∨ ∃ e, Fails i s e) :
    p ∨ ∃ e, Fails i s e :=
  s.cfgValid_cases.elim (fun hc => .inr ⟨_, .unconfigured hi hc⟩) hk

/-- A command none of whose checks fails ends with OK. -/
theorem status_ok_or_fails (h : exec i s = .next t) (hr : t.responses = r :: s.responses) : r.status = .ok ∨ ∃ e, Fails i s e := by
  have ok {u : State} {a b c : Word} (hexec : exec i s = .next (u.respond ⟨.ok, a, b, c⟩)) : r.status = .ok :=
    congrArg Response.status (newest_eq_of_next hexec h hr)
  cases i with
  | config way lvl cnt =>
    rcases execConfig_cases way lvl cnt s with ⟨e, he, -⟩ | ⟨-, hexec⟩
    · exact .inr ⟨e, .config he⟩
    · exact .inl (ok hexec)
  | load way lvl uniq image =>
    rcases execLoad_cases way lvl uniq image s with ⟨e, he, -⟩ | ⟨-, hexec⟩
    · exact .inr ⟨e, .load he⟩
    · exact .inl (ok hexec)
  | clear => exact or_fails_of_needsFilter rfl fun hc => .inl (ok (whenConfigured_of_configured hc))
  | set key =>
    refine or_fails_of_needsFilter rfl fun hc => .inl ?_
    rcases execSet_cases key s hc with ⟨hit, -, -, hexec⟩ | ⟨hfault, -⟩
    · cases hit with
      | true | false => exact ok hexec
    · cases hfault.symm.trans h
  | test key =>
    refine or_fails_of_needsFilter rfl fun hc => .inl ?_
    rcases execTest_cases key s hc with ⟨-, hexec⟩ | ⟨_, hexec⟩ | hfault
    · exact ok hexec
    · exact ok hexec
    · cases hfault.symm.trans h
  | probe key => exact or_fails_of_needsFilter rfl fun hc => .inl (ok (exec_probe hc key))
  | digest key => exact .inl (ok (exec_digest key s))
  | rdreg reg =>
    rcases execRdreg_cases reg s with ⟨-, v, -, hexec⟩ | ⟨hgt, -⟩
    · exact .inl (ok hexec)
    · exact .inr ⟨_, .rdreg hgt⟩
  | rdbuf index =>
    refine or_fails_of_needsFilter rfl fun hc => ?_
    rcases execRdbuf_configured index hc with ⟨-, hexec⟩ | ⟨hge, -⟩
    · exact .inl (ok hexec)
    · exact .inr ⟨_, .rdbuf hc hge⟩

/-- An error status is reported exactly when a check fails with it. -/
theorem status_eq_iff_fails (h : exec i s = .next t) (hr : t.responses = r :: s.responses) (e : Status) (he : e ≠ .ok) :
    r.status = e ↔ Fails i s e := by
  refine ⟨fun hstatus => ?_, fun hf => congrArg Response.status (hf.response_eq h hr)⟩
  rcases status_ok_or_fails h hr with hok | ⟨e', hf⟩
  · exact absurd (hstatus.symm.trans hok) he
  · obtain rfl : e' = e := (congrArg Response.status (hf.response_eq h hr)).symm.trans hstatus
    exact hf

theorem Answered.responses_eq (h : Answered s t r) : t.responses = r :: s.responses := h.2.2.1

theorem exec_answered (h : exec i s = .next t) : ∃ r, Answered s t r := by
  obtain ⟨u, r, rfl, hw⟩ := exec_writes h
  obtain ⟨hinputs, hresponses, hmax⟩ := hw.outside_engine
  exact ⟨r, rfl, hinputs, congrArg (r :: ·) hresponses, hmax⟩

/-- A command ends with OK, or with an error response from the state it found (R201). -/
theorem runCommand_ok_or_error (h : runCommand c s = .next t) :
    (∃ r, Answered s t r ∧ r.status = .ok) ∨ ∃ e, t = s.respond (errorResponse e) := by
  cases hwf : c.wellFormed with
  | false => exact .inr ⟨_, Host.Outcome.next.inj (h.symm.trans (runCommand_of_illFormed hwf))⟩
  | true =>
    obtain ⟨i, hd⟩ := (decoderAcceptsExactlyWellFormed c).2 hwf
    rw [runCommand_of_decode hd] at h
    obtain ⟨r, hanswered⟩ := exec_answered h
    rcases status_ok_or_fails h hanswered.responses_eq with hok | ⟨e, hf⟩
    · exact .inl ⟨r, hanswered, hok⟩
    · exact .inr ⟨e, Host.Outcome.next.inj (h.symm.trans hf.exec_eq)⟩

/-! ### The obligations -/

/-- Settles O21: an ill-formed command is answered so, and no check of an instruction fails with that status. -/
theorem illegalCommandExactlyWhenIllFormed : Obligations.IllegalCommandExactlyWhenIllFormed := by
  intro s t c h
  cases hwf : c.wellFormed with
  | false =>
    cases (runCommand_of_illFormed hwf).symm.trans h
    exact ⟨_, respond_answered s _, iff_of_true rfl rfl, fun _ => ⟨s.respond_engine _, rfl⟩⟩
  | true =>
    obtain ⟨i, hd⟩ := (decoderAcceptsExactlyWellFormed c).2 hwf
    rw [runCommand_of_decode hd] at h
    obtain ⟨r, hanswered⟩ := exec_answered h
    have hlegal : r.status ≠ .illegalCommand := fun hillegal =>
      not_fails_illegalCommand ((status_eq_iff_fails h hanswered.responses_eq .illegalCommand nofun).1 hillegal)
    exact ⟨r, hanswered, iff_of_false hlegal nofun, nofun⟩

/-- Settles O22: a command that does not end with OK only responds, and a response is outside the engine. -/
theorem failedCommandChangesNothing : Obligations.FailedCommandChangesNothing := by
  intro s t c h
  rcases runCommand_ok_or_error h with ⟨r, hanswered, hok⟩ | ⟨e, rfl⟩
  · exact ⟨r, hanswered, fun hfailed => absurd hok hfailed⟩
  · exact ⟨_, respond_answered s _, fun _ => ⟨s.respond_engine _, fun _ => rfl, rfl, rfl, rfl⟩⟩

/-- Settles O23: the check comes first in each of the five commands, and no other check fails with its status. -/
theorem notConfiguredExactlyWhen : Obligations.NotConfiguredExactlyWhen :=
  ⟨fun _ s hc hi => ⟨_, exec_unconfigured hi hc, s.respond_engine _, respond_answered s _⟩,
    fun _ _ _ _ h hr => (status_eq_iff_fails h hr .notConfigured nofun).trans fails_notConfigured_iff⟩

/-- Settles O24: of the checks that fail, only those of CONFIG and LOAD fail so. -/
theorem invalidParameterExactlyWhen : Obligations.InvalidParameterExactlyWhen := by
  intro i s t r h hr
  rw [status_eq_iff_fails h hr .invalidParameter nofun]
  constructor
  · intro hf
    cases hf with
    | config he => exact .inl ⟨_, _, _, rfl, configError_invalidParameter_iff.1 he⟩
    | load he => exact .inr ⟨_, _, _, _, rfl, loadError_invalidParameter_iff.1 he⟩
  · rintro (⟨way, lvl, cnt, rfl, hbad⟩ | ⟨way, lvl, uniq, image, rfl, hbad⟩)
    · exact .config (configError_invalidParameter_iff.2 hbad)
    · exact .load (loadError_invalidParameter_iff.2 hbad)

/-- Settles O25: of the checks that fail, only those of CONFIG and LOAD fail so. -/
theorem capacityOverflowExactlyWhen : Obligations.CapacityOverflowExactlyWhen := by
  intro i s t r h hr
  rw [status_eq_iff_fails h hr .capacityOverflow nofun]
  constructor
  · intro hf
    cases hf with
    | config he => exact .inl ⟨_, _, _, rfl, configError_capacityOverflow_iff.1 he⟩
    | load he => exact .inr ⟨_, _, _, _, rfl, loadError_capacityOverflow_iff.1 he⟩
  · rintro (⟨way, lvl, cnt, rfl, hbig⟩ | ⟨way, lvl, uniq, image, rfl, hbig⟩)
    · exact .config (configError_capacityOverflow_iff.2 hbig)
    · exact .load (loadError_capacityOverflow_iff.2 hbig)

/-- Settles O26: of the checks that fail, only those of RDREG and RDBUF fail so. -/
theorem outOfRangeExactlyWhen : Obligations.OutOfRangeExactlyWhen := by
  intro i s t r h hr
  rw [status_eq_iff_fails h hr .outOfRange nofun]
  constructor
  · intro hf
    cases hf with
    | config he => simpa using configError_eq_some he
    | load he => simpa using loadError_eq_some he
    | rdreg hgt => exact .inl ⟨_, rfl, hgt⟩
    | rdbuf hc hge => exact .inr ⟨_, rfl, hc, hge⟩
  · rintro (⟨reg, rfl, hgt⟩ | ⟨index, rfl, hc, hge⟩)
    · exact .rdreg hgt
    · exact .rdbuf hc hge

/-- On a configured engine no check of CLEAR, SET, TEST or PROBE fails, and DIGEST has none (R208). -/
theorem not_fails_keyCommand
    (hi : (s.cfgValid = 1#1 ∧ (i = .clear ∨ ∃ key, i = .set key ∨ i = .test key ∨ i = .probe key)) ∨ ∃ key, i = .digest key) :
    ¬ Fails i s e := by
  rcases hi with ⟨hc, hi⟩ | ⟨key, rfl⟩
  · have hconfigured : s.cfgValid ≠ 0#1 := by
      rw [hc]
      decide
    rcases hi with rfl | ⟨key, rfl | rfl | rfl⟩ <;> exact fun | .unconfigured _ hzero => hconfigured hzero
  · exact fun | .unconfigured hneeds _ => nomatch hneeds

/-- Settles O27: under the invariant these commands answer, and none of their checks fails. -/
theorem keyCommandsNeverFail : Obligations.KeyCommandsNeverFail := by
  intro i s h hi
  obtain ⟨t, hexec⟩ := exec_completes h i
  obtain ⟨r, hanswered⟩ := exec_answered hexec
  exact ⟨t, r, hexec, hanswered,
    (status_ok_or_fails hexec hanswered.responses_eq).resolve_right fun ⟨_, hf⟩ => not_fails_keyCommand hi hf⟩

end Sys2Proof.Machine
end

section
/-! PROOFS. Reset and the port (R77, R230, R231, R236): the step that takes a reset, the engine it leaves, and that no step stops. -/

namespace Sys2Proof.Machine

variable {s : State} {rest : List HostInput}

/-! ### What a reset leaves -/

/-- No address exists while the engine is unconfigured (R27, R50). -/
theorem memReadByte_of_unconfigured (hc : s.cfgValid = 0#1) (a : Nat) : s.memReadByte a = none :=
  memReadByte_of_not_lt (by simp [State.bufBytes_unconfigured hc])

/-- Only the build-time constant outlives a reset (R29, R230). -/
theorem State.takeReset_engine (s : State) :
    s.takeReset.engine = { State.reset.engine with bufBytesMax := s.bufBytesMax } := rfl

/-! ### The step that takes a reset -/

/-- A reset first in the inputs is taken at an idle port and at a busy one (R230, R231). -/
theorem step_reset (hi : s.inputs = .reset :: rest) : step s = .next (s.setInputs rest).takeReset := by
  rw [step, stepPort]
  cases s.port with
  | idle =>
    dsimp only
    rw [stepIdle, hi]
  | busy c =>
    dsimp only
    rw [stepBusy, hi]

/-- An idle port accepts the command and loses it to the reset in the same step (R231). -/
theorem step_resetDuring {c : Command} (hp : s.port = .idle) (hi : s.inputs = .resetDuring c :: rest) :
    step s = .next ((s.setInputs rest).accept c).takeReset := by
  rw [step, stepPort, hp]
  dsimp only
  rw [stepIdle, hi]

/-! ### The obligations -/

/-- Settles O13: a step runs a command on the same engine, which completes under the invariant, or waits, or takes a reset. -/
theorem stepNeverStops : Obligations.StepNeverStops := by
  intro s h
  rcases step_cases (s := s) rfl with ⟨c, u, hrun, hengine, -⟩ | ⟨hwait, -⟩ | ⟨u, hreset, -⟩
  · rw [← hrun]
    exact runCommand_completes (inv_engine hengine h) c
  · exact ⟨s, hwait⟩
  · exact ⟨u.takeReset, hreset⟩

/-- Settles O8: the step that takes a reset leaves `takeReset`, whose registers are those of the state after reset. -/
theorem resetLeavesRegistersZero : Obligations.ResetLeavesRegistersZero :=
  ⟨rfl, rfl, fun s rest hi =>
    ⟨(s.setInputs rest).takeReset, step_reset hi, State.takeReset_cfgValid _, State.takeReset_way _, State.takeReset_pageLevel _,
      State.takeReset_pageCount _, State.takeReset_uniqueCount _, State.takeReset_port _, State.takeReset_bufBytesMax _,
      memReadByte_of_unconfigured (State.takeReset_cfgValid _)⟩⟩

/-- Settles O9: at a busy port and for a command just accepted, the step is the reset, which keeps the record of responses as it is. -/
theorem resetDuringCommandAbandonsIt : Obligations.ResetDuringCommandAbandonsIt := by
  rintro s c rest (⟨-, hi⟩ | ⟨hp, hi⟩)
  · exact ⟨_, step_reset hi, State.takeReset_responses _, State.takeReset_engine _, State.takeReset_port _⟩
  · exact ⟨_, step_resetDuring hp hi, State.takeReset_responses _, State.takeReset_engine _, State.takeReset_port _⟩

end Sys2Proof.Machine
end
